-- ==== Sys2Proof/Word.lean ====
section
/-! DEFINITION. The words of the block: 8-bit bytes, 16-bit pairs, and the text of the command port. -/

namespace Sys2Proof

/-- One byte: an 8-bit register or the addressable unit of memory (spec R11, R40). -/
abbrev Byte := BitVec 8

/-- One 16-bit register pair (spec R12). -/
abbrev Word := BitVec 16

/-- A text token: a mnemonic or an operand as the command port receives it (spec R60, R61). -/
abbrev Text := List Char

end Sys2Proof
end

