-- ==== Sys2Proof/Config.lean ====
section
/-! DEFINITION. What an instance of the block fixes: the register file's twelve bytes as a type (also the type of the
parameter `RESET_REGS`), the parameters `EXT_OPS` and `INFERRED_FORMS`, their defaults, and what a byte of memory that
nothing has written reads as. The spec leaves no value free, so there is no opaque constant here. -/

namespace Sys2Proof

/-- The register file: twelve bytes, in the order of spec R14 (spec R10, R12). -/
structure RegFile where
  a : Byte
  f : Byte
  b : Byte
  c : Byte
  d : Byte
  e : Byte
  h : Byte
  l : Byte
  pch : Byte
  pcl : Byte
  sph : Byte
  spl : Byte
deriving DecidableEq, Repr

/-- The two switches an instance of the block is built with (spec 00_scope section 5, R76, R84). -/
structure Params where
  /-- `EXT_OPS`: the mnemonics `and or rlc rrc sla sra` are keys of the dispatch table. -/
  extOps : Bool
  /-- `INFERRED_FORMS`: the forms graded I or G are given their meaning. -/
  inferredForms : Bool
deriving DecidableEq, Repr

/-- The default of `RESET_REGS`: twelve zero bytes (spec R27, decision D3). DESIGN CHOICE of the spec: log entry 1,
unsafe. -/
def Config.resetRegs : RegFile :=
  { a := 0x00, f := 0x00, b := 0x00, c := 0x00, d := 0x00, e := 0x00, h := 0x00, l := 0x00,
    pch := 0x00, pcl := 0x00, sph := 0x00, spl := 0x00 }

/-- The defaults of the two switches (spec 00_scope section 5, decisions D10 and D13; log entries 2 and 3). -/
def Config.params : Params := { extOps := false, inferredForms := true }

/-- What a byte of memory that nothing has written reads as: "Memory: 65536 bytes, zero-initialized." (spec R27, R49,
R230). -/
def Config.freshByte : Byte := 0x00

end Sys2Proof
end

