-- ==== Sys2Proof/Syntax.lean ====
section
/-! DEFINITION. The commands of the block as data: register names, the instruction type (one constructor for each
form of spec/opcode_table.json), the text command, the operand tokens of the classifier, and the calls the host can
make on the three ports. -/

namespace Sys2Proof

/-- The operand kind `r8`: the seven registers A B C D E H L, not F (spec R67). -/
inductive R8 where
  | a | b | c | d | e | h | l
deriving DecidableEq, Repr

/-- The operand kind `r16`: the three pairs BC, DE, HL, not AF, PC or SP (spec R67). -/
inductive R16 where
  | bc | de | hl
deriving DecidableEq, Repr

/-- The eight 8-bit register names of the register port (spec R11). -/
inductive Reg8 where
  | a | f | b | c | d | e | h | l
deriving DecidableEq, Repr

/-- The six 16-bit register names of the register port (spec R12). -/
inductive Reg16 where
  | af | bc | de | hl | pc | sp
deriving DecidableEq, Repr

/-- The four flags (spec R15). -/
inductive Flag where
  | z | n | h | c
deriving DecidableEq, Repr

/-- The three memory access widths: 1, 2 and 4 bytes (spec R41, R42, R43). -/
inductive Width where
  | byte | word | dword
deriving DecidableEq, Repr

/-- What `p` and `print` may be asked to show: an operand of any classified kind (spec R190). -/
inductive PrintArg where
  /-- A literal's value, an integer of the `n16` range -32768..65535. -/
  | lit (v : Int)
  /-- An 8-bit register. -/
  | reg8 (r : R8)
  /-- A pair of kind `r16`. -/
  | reg16 (rr : R16)
  /-- The stack pointer. -/
  | sp
  /-- The byte at HL, written `[HL]`. -/
  | atHL
  /-- The byte at HL, written `[HLI]`; HL is not stepped. -/
  | atHLI
  /-- The byte at HL, written `[HLD]`; HL is not stepped. -/
  | atHLD
deriving DecidableEq, Repr

/-- The instructions of the block, one constructor for each form of spec R76. A row of spec/opcode_table.json is a
form with its register named; the registers are the constructor's arguments. An 8-bit or 16-bit immediate stands here
already reduced to its width (spec R77); an address or a count of an examine command stands as the integer its literal
has, since those are not reduced (spec R191). -/
inductive Instr where
  /-- `add A, n8` (R110). -/
  | addN8 (n : Byte)
  /-- `add A, r8` (R110). -/
  | addR8 (r : R8)
  /-- `add A, [HL]` (R110). -/
  | addInd
  /-- `adc A, n8` (R111). -/
  | adcN8 (n : Byte)
  /-- `adc A, r8` (R111). -/
  | adcR8 (r : R8)
  /-- `adc A, [HL]` (R111). -/
  | adcInd
  /-- `sub A, n8` (R112). -/
  | subN8 (n : Byte)
  /-- `sub A, r8` (R112). -/
  | subR8 (r : R8)
  /-- `sub A, [HL]` (R112). -/
  | subInd
  /-- `sbc A, n8` (R113). -/
  | sbcN8 (n : Byte)
  /-- `sbc A, r8` (R113). -/
  | sbcR8 (r : R8)
  /-- `sbc A, [HL]` (R113). -/
  | sbcInd
  /-- `and A, n8` (R134, a key of the dispatch table under `EXT_OPS`). -/
  | andN8 (n : Byte)
  /-- `and A, r8` (R134, `EXT_OPS`). -/
  | andR8 (r : R8)
  /-- `and A, [HL]` (R134, `EXT_OPS`). -/
  | andInd
  /-- `xor A, n8` (R131). -/
  | xorN8 (n : Byte)
  /-- `xor A, r8` (R131). -/
  | xorR8 (r : R8)
  /-- `xor A, [HL]` (R131). -/
  | xorInd
  /-- `or A, n8` (R136, `EXT_OPS`). -/
  | orN8 (n : Byte)
  /-- `or A, r8` (R136, `EXT_OPS`). -/
  | orR8 (r : R8)
  /-- `or A, [HL]` (R136, `EXT_OPS`). -/
  | orInd
  /-- `cp A, n8` (R114). -/
  | cpN8 (n : Byte)
  /-- `cp A, r8` (R114). -/
  | cpR8 (r : R8)
  /-- `cp A, [HL]` (R114). -/
  | cpInd
  /-- `add HL, r16` (R115). -/
  | addHl (rr : R16)
  /-- `inc r8` (R116). -/
  | incR8 (r : R8)
  /-- `dec r8` (R117). -/
  | decR8 (r : R8)
  /-- `cpl` (R132). -/
  | cpl
  /-- `rrca` (R141). -/
  | rrca
  /-- `rlc r8` (R150, `EXT_OPS`). -/
  | rlcR8 (r : R8)
  /-- `rrc r8` (R150, `EXT_OPS`). -/
  | rrcR8 (r : R8)
  /-- `sla r8` (R150, `EXT_OPS`). -/
  | slaR8 (r : R8)
  /-- `sra r8` (R150, `EXT_OPS`). -/
  | sraR8 (r : R8)
  /-- `swap r8` (R145). -/
  | swapR8 (r : R8)
  /-- `srl r8` (R143). -/
  | srlR8 (r : R8)
  /-- `nop` (R160). -/
  | nop
  /-- `ld r16, n16` (R161). -/
  | ldR16N16 (rr : R16) (n : Word)
  /-- `ld [HL], r8` (R162). -/
  | ldIndR8 (r : R8)
  /-- `ld r8, r8` (R163). -/
  | ldR8R8 (dst src : R8)
  /-- `ld r8, n8` (R164). -/
  | ldR8N8 (dst : R8) (n : Byte)
  /-- `ld r8, [HL]` (R165). -/
  | ldR8Ind (dst : R8)
  /-- `ld [HL], n8` (R166). -/
  | ldIndN8 (n : Byte)
  /-- `ld [HLI], A` (R167). -/
  | ldHliA
  /-- `ld [HLD], A` (R168). -/
  | ldHldA
  /-- `ld A, [HLI]` (R169). -/
  | ldAHli
  /-- `ld A, [HLD]` (R170). -/
  | ldAHld
  /-- `ld SP, n16` (R171). -/
  | ldSpN16 (n : Word)
  /-- `ld SP, HL` (R172). -/
  | ldSpHl
  /-- `push r16` (R174). -/
  | push (rr : R16)
  /-- `pop r16` (R175). -/
  | pop (rr : R16)
  /-- `p x` (R190). -/
  | p (x : PrintArg)
  /-- `print x` (R190). -/
  | print (x : PrintArg)
  /-- `r/1 a` (R191). -/
  | r1 (addr : Int)
  /-- `r/2 a` (R191). -/
  | r2 (addr : Int)
  /-- `r/4 a` (R191). -/
  | r4 (addr : Int)
  /-- `x/1 o, c` (R192). -/
  | x1 (offset count : Int)
  /-- `x/2 o, c` (R192). -/
  | x2 (offset count : Int)
  /-- `x/4 o, c` (R192). -/
  | x4 (offset count : Int)
  /-- `status` (R193). -/
  | status
deriving DecidableEq, Repr

/-- The keys of the dispatch table: the 25 spellings of spec R71 and the six of `EXT_OPS` (spec R84). -/
inductive Mnemonic where
  | adc | add | cp | cpl | dec | inc | ld | nop | p | print | pop | push | r1 | r2 | r4 | rrca | sbc | srl | status
  | sub | swap | x1 | x2 | x4 | xor
  | and | or | rlc | rrc | sla | sra
deriving DecidableEq, Repr

/-- The evidence grade of a form (spec R76): settled by the source, inferred, or general knowledge. -/
inductive Grade where
  | settled | inferred | general
deriving DecidableEq, Repr

/-- A command as the command port receives it: the mnemonic and the operand texts, already split (spec R61). -/
structure Command where
  mnemonic : Text
  operands : List Text
deriving DecidableEq, Repr

/-- The thirteen kind tags of the classifier (spec R64). -/
inductive Kind where
  | u3 | e8 | n8 | n16
  | accA | r8 | cc | pairHL | r16
  | regSP | atHL | atHLI | atHLD
deriving DecidableEq, Repr

/-- The symbolic operand forms (spec R67). -/
inductive Symbol where
  | r8 (r : R8)
  | r16 (rr : R16)
  | sp
  | atHL
  | atHLI
  | atHLD
deriving DecidableEq, Repr

/-- A token's resolved value: an integer for a literal, the name for a symbolic form (spec R64). -/
inductive TokenValue where
  | int (v : Int)
  | sym (x : Symbol)
deriving DecidableEq, Repr

/-- An operand token: a set of kind tags with a value, or `unknown` with the original text (spec R64, R68). -/
inductive Token where
  | known (kinds : List Kind) (value : TokenValue)
  | unknown (raw : Text)
deriving DecidableEq, Repr

/-- The five errors a command can end with (spec R200). `unknownOperand` records the operand's text (spec R205). A
validation error of a register-port or memory-port call is a `range` error (spec R203). -/
inductive CmdError where
  | arity
  | kindMismatch
  | range
  | unknownMnemonic
  | unknownOperand (raw : Text)
deriving DecidableEq, Repr

/-- A call on the register port (spec R18 to R20) or on the memory port (spec R41 to R46). A register or flag key is
the text the host gives, so that a wrong key can be written. -/
inductive PortCall where
  | get8 (key : Text)
  | set8 (key : Text) (v : Int)
  | get16 (key : Text)
  | set16 (key : Text) (v : Int)
  | getFlag (key : Text)
  | setFlag (key : Text) (b : Bool)
  | mget (w : Width) (addr : Int)
  | mset (w : Width) (addr v : Int)
deriving DecidableEq, Repr

/-- One thing the host presents: a split command, a whole line for the caller's splitter, or a port call (spec R3). -/
inductive Request where
  | command (c : Command)
  | line (t : Text)
  | port (call : PortCall)
deriving DecidableEq, Repr

end Sys2Proof
end

