-- ==== Sys2Proof/WellFormed.lean ====
section
/-! DEFINITION. Which instructions are well formed: the integers an examine command carries must be ones a literal of
kind `n16` can have. Every other operand is bounded by its type. -/

namespace Sys2Proof

/-- The range of the kind `n16` (spec R66). -/
def inN16 (v : Int) : Bool := decide (-32768 ≤ v) && decide (v ≤ 65535)

/-- A literal shown by `p` or `print` lies in the widest literal range; the other operands are always well formed. -/
def PrintArg.wf : PrintArg → Bool
  | .lit v => inN16 v
  | .reg8 _ => true
  | .reg16 _ => true
  | .sp => true
  | .atHL => true
  | .atHLI => true
  | .atHLD => true

/-- Well-formedness of an instruction: exactly the terms some command text decodes to (spec R66, R76). -/
def Instr.wf : Instr → Bool
  | .p x => x.wf
  | .print x => x.wf
  | .r1 a => inN16 a
  | .r2 a => inN16 a
  | .r4 a => inN16 a
  | .x1 o c => inN16 o && inN16 c
  | .x2 o c => inN16 o && inN16 c
  | .x4 o c => inN16 o && inN16 c
  | .addN8 _ | .addR8 _ | .addInd | .adcN8 _ | .adcR8 _ | .adcInd => true
  | .subN8 _ | .subR8 _ | .subInd | .sbcN8 _ | .sbcR8 _ | .sbcInd => true
  | .andN8 _ | .andR8 _ | .andInd | .xorN8 _ | .xorR8 _ | .xorInd => true
  | .orN8 _ | .orR8 _ | .orInd | .cpN8 _ | .cpR8 _ | .cpInd => true
  | .addHl _ | .incR8 _ | .decR8 _ | .cpl | .rrca => true
  | .rlcR8 _ | .rrcR8 _ | .slaR8 _ | .sraR8 _ | .swapR8 _ | .srlR8 _ => true
  | .nop | .ldR16N16 _ _ | .ldIndR8 _ | .ldR8R8 _ _ | .ldR8N8 _ _ | .ldR8Ind _ | .ldIndN8 _ => true
  | .ldHliA | .ldHldA | .ldAHli | .ldAHld | .ldSpN16 _ | .ldSpHl | .push _ | .pop _ | .status => true

end Sys2Proof
end

