-- ==== Sys2Proof/Decode.lean ====
section
/-! DEFINITION. Decoding and encoding. The normative instruction form is text (spec R60): the classifier of operand
texts, the dispatch of a command to an instruction or to the error it is answered with, and the text of an instruction.
After it the annex of LR35902 bytes (spec R80 to R82): a byte decoder, total and refusing by none, and the byte encoder. -/

namespace Sys2Proof

/-! ## Letters and literals -/

/-- Upper-casing of one letter (spec R63). -/
def upperChar (x : Char) : Char := if 97 ≤ x.toNat ∧ x.toNat ≤ 122 then Char.ofNat (x.toNat - 32) else x

/-- Lower-casing of one letter (spec R63). -/
def lowerChar (x : Char) : Char := if 65 ≤ x.toNat ∧ x.toNat ≤ 90 then Char.ofNat (x.toNat + 32) else x

/-- A decimal digit's value. -/
def decDigit (x : Char) : Option Nat := if 48 ≤ x.toNat ∧ x.toNat ≤ 57 then some (x.toNat - 48) else none

/-- A binary digit's value. -/
def binDigit (x : Char) : Option Nat := if 48 ≤ x.toNat ∧ x.toNat ≤ 49 then some (x.toNat - 48) else none

/-- A hexadecimal digit's value, on upper-cased text. -/
def hexDigit (x : Char) : Option Nat :=
  if 48 ≤ x.toNat ∧ x.toNat ≤ 57 then some (x.toNat - 48)
  else if 65 ≤ x.toNat ∧ x.toNat ≤ 70 then some (x.toNat - 55)
  else none

/-- The value of a run of digits in a base, most significant first; none if some mark is no digit. -/
def digitsFrom (base : Nat) (digit : Char → Option Nat) : Nat → Text → Option Nat
  | acc, [] => some acc
  | acc, x :: rest =>
    match digit x with
    | none => none
    | some d => digitsFrom base digit (acc * base + d) rest

/-- A run of at least one digit: a remainder without a digit is no literal (spec R65, decision D20). -/
def digits (base : Nat) (digit : Char → Option Nat) : Text → Option Nat
  | [] => none
  | x :: rest => digitsFrom base digit 0 (x :: rest)

/-- The magnitude of a literal after its sign: `%` binary, `$` hexadecimal, else decimal (spec R65). -/
def magnitude : Text → Option Nat
  | '%' :: rest => digits 2 binDigit rest
  | '$' :: rest => digits 16 hexDigit rest
  | t => digits 10 decDigit t

/-- The integer an upper-cased text denotes, if it is a literal: one optional `-` before the base mark (spec R65). -/
def literal : Text → Option Int
  | '-' :: rest => (magnitude rest).map fun m => -(m : Int)
  | t => (magnitude t).map fun m => (m : Int)

/-! ## The classifier -/

/-- The maximal set of numeric kinds whose range holds the value; empty outside -32768..65535 (spec R66). -/
def kindsOf (v : Int) : List Kind :=
  if 0 ≤ v ∧ v ≤ 7 then [.u3, .e8, .n8, .n16]
  else if -128 ≤ v ∧ v ≤ 127 then [.e8, .n8, .n16]
  else if -128 ≤ v ∧ v ≤ 255 then [.n8, .n16]
  else if -32768 ≤ v ∧ v ≤ 65535 then [.n16]
  else []

/-- The fixed symbolic forms on upper-cased text (spec R67). -/
def symbolOf (t : Text) : Option (List Kind × Symbol) :=
  if t = ['A'] then some ([.accA, .r8], .r8 .a)
  else if t = ['C'] then some ([.r8, .cc], .r8 .c)
  else if t = ['B'] then some ([.r8], .r8 .b)
  else if t = ['D'] then some ([.r8], .r8 .d)
  else if t = ['E'] then some ([.r8], .r8 .e)
  else if t = ['H'] then some ([.r8], .r8 .h)
  else if t = ['L'] then some ([.r8], .r8 .l)
  else if t = ['H', 'L'] then some ([.pairHL, .r16], .r16 .hl)
  else if t = ['B', 'C'] then some ([.r16], .r16 .bc)
  else if t = ['D', 'E'] then some ([.r16], .r16 .de)
  else if t = ['S', 'P'] then some ([.regSP], .sp)
  else if t = ['[', 'H', 'L', ']'] then some ([.atHL], .atHL)
  else if t = ['[', 'H', 'L', 'I', ']'] then some ([.atHLI], .atHLI)
  else if t = ['[', 'H', 'L', 'D', ']'] then some ([.atHLD], .atHLD)
  else none

/-- The operand classifier: a literal in range, a symbolic form, or `unknown` with the original text (spec R64 to
R68). -/
def classify (raw : Text) : Token :=
  let t := raw.map upperChar
  match literal t with
  | some v =>
    match kindsOf v with
    | [] => .unknown raw
    | k :: ks => .known (k :: ks) (.int v)
  | none =>
    match symbolOf t with
    | some (ks, x) => .known ks (.sym x)
    | none => .unknown raw

/-! ## What a form takes from a token -/

/-- Membership of a kind in the token's kind set (spec R9). -/
def Token.has (t : Token) (k : Kind) : Bool :=
  match t with
  | .known ks _ => ks.contains k
  | .unknown _ => false

/-- The register of a token that carries `r8`. -/
def Token.r8? (t : Token) : Option R8 :=
  match t.has .r8, t with
  | true, .known _ (.sym (.r8 r)) => some r
  | _, _ => none

/-- The pair of a token that carries `r16`. -/
def Token.r16? (t : Token) : Option R16 :=
  match t.has .r16, t with
  | true, .known _ (.sym (.r16 rr)) => some rr
  | _, _ => none

/-- The literal of a token that carries `n8`, reduced modulo 256 (spec R77, decision D6). -/
def Token.n8? (t : Token) : Option Byte :=
  match t.has .n8, t with
  | true, .known _ (.int v) => some (BitVec.ofInt 8 v)
  | _, _ => none

/-- The integer of a token that carries `n16`, unreduced: an address or a count (spec R191, R192). -/
def Token.int? (t : Token) : Option Int :=
  match t.has .n16, t with
  | true, .known _ (.int v) => some v
  | _, _ => none

/-- The literal of a token that carries `n16`, reduced modulo 65536 (spec R77). -/
def Token.n16? (t : Token) : Option Word := t.int?.map (BitVec.ofInt 16)

/-- What `p` and `print` take: any classified token (spec R190). -/
def Token.printArg? : Token → Option PrintArg
  | .unknown _ => none
  | .known _ (.int v) => some (.lit v)
  | .known _ (.sym (.r8 r)) => some (.reg8 r)
  | .known _ (.sym (.r16 rr)) => some (.reg16 rr)
  | .known _ (.sym .sp) => some .sp
  | .known _ (.sym .atHL) => some .atHL
  | .known _ (.sym .atHLI) => some .atHLI
  | .known _ (.sym .atHLD) => some .atHLD

/-! ## The dispatch table -/

/-- The lower-case spelling of a dispatch key (spec R71, R84). -/
def Mnemonic.text : Mnemonic → Text
  | .adc => ['a', 'd', 'c']
  | .add => ['a', 'd', 'd']
  | .cp => ['c', 'p']
  | .cpl => ['c', 'p', 'l']
  | .dec => ['d', 'e', 'c']
  | .inc => ['i', 'n', 'c']
  | .ld => ['l', 'd']
  | .nop => ['n', 'o', 'p']
  | .p => ['p']
  | .print => ['p', 'r', 'i', 'n', 't']
  | .pop => ['p', 'o', 'p']
  | .push => ['p', 'u', 's', 'h']
  | .r1 => ['r', '/', '1']
  | .r2 => ['r', '/', '2']
  | .r4 => ['r', '/', '4']
  | .rrca => ['r', 'r', 'c', 'a']
  | .sbc => ['s', 'b', 'c']
  | .srl => ['s', 'r', 'l']
  | .status => ['s', 't', 'a', 't', 'u', 's']
  | .sub => ['s', 'u', 'b']
  | .swap => ['s', 'w', 'a', 'p']
  | .x1 => ['x', '/', '1']
  | .x2 => ['x', '/', '2']
  | .x4 => ['x', '/', '4']
  | .xor => ['x', 'o', 'r']
  | .and => ['a', 'n', 'd']
  | .or => ['o', 'r']
  | .rlc => ['r', 'l', 'c']
  | .rrc => ['r', 'r', 'c']
  | .sla => ['s', 'l', 'a']
  | .sra => ['s', 'r', 'a']

/-- Every dispatch key. -/
def Mnemonic.all : List Mnemonic :=
  [.adc, .add, .cp, .cpl, .dec, .inc, .ld, .nop, .p, .print, .pop, .push, .r1, .r2, .r4, .rrca]
  ++ [.sbc, .srl, .status, .sub, .swap, .x1, .x2, .x4, .xor, .and, .or, .rlc, .rrc, .sla, .sra]

/-- The six keys that `EXT_OPS` gates (spec R84). -/
def Mnemonic.isExt : Mnemonic → Bool
  | .and | .or | .rlc | .rrc | .sla | .sra => true
  | _ => false

/-- The mnemonics with the accumulator default (spec R73, R74). -/
def Mnemonic.isAccumulator : Mnemonic → Bool
  | .adc | .add | .cp | .sbc | .sub | .xor | .and | .or => true
  | _ => false

/-- The operands a mnemonic requires, after the accumulator default (spec R73). -/
def Mnemonic.arity : Mnemonic → Nat
  | .adc | .add | .cp | .sbc | .sub | .xor | .and | .or => 2
  | .dec | .inc | .srl | .swap | .pop | .push | .print | .p | .r1 | .r2 | .r4 => 1
  | .rlc | .rrc | .sla | .sra => 1
  | .ld | .x1 | .x2 | .x4 => 2
  | .nop | .cpl | .rrca | .status => 0

/-- The key a mnemonic text selects on this instance, matched in lower case; none is UnknownMnemonicError (spec R63,
R71, R78, R84). -/
def dispatchKey (params : Params) (t : Text) : Option Mnemonic :=
  Mnemonic.all.find? fun m => (m.text == t.map lowerChar) && (!m.isExt || params.extOps)

/-- The accumulator default: one operand of these mnemonics is the second one, the first being `A` (spec R74). -/
def normalise (m : Mnemonic) (ops : List Text) : List Text :=
  match m.isAccumulator, ops with
  | true, [x] => [['A'], x]
  | _, _ => ops

/-- The text of the first operand the classifier does not know, from the left (spec R209). -/
def firstUnknown : List Token → Option Text
  | [] => none
  | .unknown raw :: _ => some raw
  | .known _ _ :: rest => firstUnknown rest

/-- The first form that fits, of the forms tried in order (spec R79, R173). -/
def firstForm : List (Option Instr) → Option Instr
  | [] => none
  | some i :: _ => some i
  | none :: rest => firstForm rest

/-- A form without an operand value: it fits when its condition holds. -/
def formIf (c : Bool) (i : Instr) : Option Instr := if c then some i else none

/-- A form with two operand values: it fits when both operands give theirs. -/
def formOf2 {α β : Type} (mk : α → β → Instr) (x : Option α) (y : Option β) : Option Instr :=
  match x, y with
  | some a, some b => some (mk a b)
  | _, _ => none

/-- The three accumulator forms of one mnemonic: a first operand of kind `A`, and a second one of kind `r8`, `n8` or
`[HL]` (spec R76, R79). -/
def accForm (onN8 : Byte → Instr) (onR8 : R8 → Instr) (onInd : Instr) (d x : Token) : Option Instr :=
  if d.has .accA then firstForm [x.r8?.map onR8, x.n8?.map onN8, formIf (x.has .atHL) onInd] else none

/-- `add`: the accumulator form, else `HL, r16` (spec R79). -/
def addForm (d x : Token) : Option Instr :=
  firstForm [accForm .addN8 .addR8 .addInd d x, if d.has .pairHL then x.r16?.map .addHl else none]

/-- The twelve forms of `ld`, in the order of spec R173. -/
def ldForm (d x : Token) : Option Instr :=
  firstForm
    [formOf2 .ldR8R8 d.r8? x.r8?,
     formOf2 .ldR8N8 d.r8? x.n8?,
     if x.has .atHL then d.r8?.map .ldR8Ind else none,
     formIf (d.has .accA && x.has .atHLI) .ldAHli,
     formIf (d.has .accA && x.has .atHLD) .ldAHld,
     if d.has .atHL then x.r8?.map .ldIndR8 else none,
     if d.has .atHL then x.n8?.map .ldIndN8 else none,
     formIf (d.has .atHLI && x.has .accA) .ldHliA,
     formIf (d.has .atHLD && x.has .accA) .ldHldA,
     formOf2 .ldR16N16 d.r16? x.n16?,
     if d.has .regSP then x.n16?.map .ldSpN16 else none,
     formIf (d.has .regSP && x.has .pairHL) .ldSpHl]

/-- The form of a mnemonic that the operand tokens fit; none is KindMismatchError (spec R76, R85). -/
def matchForm (m : Mnemonic) (toks : List Token) : Option Instr :=
  match m, toks with
  | .add, [d, x] => addForm d x
  | .adc, [d, x] => accForm .adcN8 .adcR8 .adcInd d x
  | .sub, [d, x] => accForm .subN8 .subR8 .subInd d x
  | .sbc, [d, x] => accForm .sbcN8 .sbcR8 .sbcInd d x
  | .and, [d, x] => accForm .andN8 .andR8 .andInd d x
  | .xor, [d, x] => accForm .xorN8 .xorR8 .xorInd d x
  | .or, [d, x] => accForm .orN8 .orR8 .orInd d x
  | .cp, [d, x] => accForm .cpN8 .cpR8 .cpInd d x
  | .inc, [x] => x.r8?.map .incR8
  | .dec, [x] => x.r8?.map .decR8
  | .rlc, [x] => x.r8?.map .rlcR8
  | .rrc, [x] => x.r8?.map .rrcR8
  | .sla, [x] => x.r8?.map .slaR8
  | .sra, [x] => x.r8?.map .sraR8
  | .swap, [x] => x.r8?.map .swapR8
  | .srl, [x] => x.r8?.map .srlR8
  | .push, [x] => x.r16?.map .push
  | .pop, [x] => x.r16?.map .pop
  | .p, [x] => x.printArg?.map .p
  | .print, [x] => x.printArg?.map .print
  | .r1, [x] => x.int?.map .r1
  | .r2, [x] => x.int?.map .r2
  | .r4, [x] => x.int?.map .r4
  | .ld, [d, x] => ldForm d x
  | .x1, [o, n] => formOf2 .x1 o.int? n.int?
  | .x2, [o, n] => formOf2 .x2 o.int? n.int?
  | .x4, [o, n] => formOf2 .x4 o.int? n.int?
  | .nop, [] => some .nop
  | .cpl, [] => some .cpl
  | .rrca, [] => some .rrca
  | .status, [] => some .status
  | _, _ => none

/-- Decoding of a text command, in the error order of spec R209: the mnemonic, the operand count, an unknown operand
from the left, the kinds. A RangeError is left to the instruction itself. -/
def decodeCommand (params : Params) (x : Command) : Except CmdError Instr :=
  match dispatchKey params x.mnemonic with
  | none => .error .unknownMnemonic
  | some m =>
    let ops := normalise m x.operands
    if ops.length ≠ m.arity then .error .arity
    else
      let toks := ops.map classify
      match firstUnknown toks with
      | some raw => .error (.unknownOperand raw)
      | none =>
        match matchForm m toks with
        | some i => .ok i
        | none => .error .kindMismatch

/-! ## The caller's splitter -/

/-- White space inside a line. -/
def isBlank (x : Char) : Bool := x == ' ' || x == '\t'

/-- A text without the white space around it. -/
def trim (t : Text) : Text := ((t.dropWhile isBlank).reverse.dropWhile isBlank).reverse

/-- A text cut at every comma. -/
def splitCommas : Text → List Text
  | [] => [[]]
  | x :: rest =>
    match x == ',', splitCommas rest with
    | true, parts => [] :: parts
    | false, p :: parts => (x :: p) :: parts
    | false, [] => [[x]]

/-- A line without its comment (spec R61). -/
def stripComment (t : Text) : Text := t.takeWhile fun x => x != ';'

/-- A line split into mnemonic and operand texts; none for a line with no mnemonic (spec R61, R62). The source leaves
the splitting to the caller: log entry 6. -/
def splitLine (t : Text) : Option Command :=
  match trim (stripComment t) with
  | [] => none
  | x :: rest =>
    let word := (x :: rest).takeWhile fun y => !isBlank y
    let args := trim ((x :: rest).dropWhile fun y => !isBlank y)
    match args with
    | [] => some { mnemonic := word, operands := [] }
    | y :: more => some { mnemonic := word, operands := (splitCommas (y :: more)).map trim }

/-! ## The text of an instruction -/

/-- The operand text of a register of kind `r8`. -/
def R8.text : R8 → Text
  | .a => ['A']
  | .b => ['B']
  | .c => ['C']
  | .d => ['D']
  | .e => ['E']
  | .h => ['H']
  | .l => ['L']

/-- The operand text of a pair of kind `r16`. -/
def R16.text : R16 → Text
  | .bc => ['B', 'C']
  | .de => ['D', 'E']
  | .hl => ['H', 'L']

/-- The operand texts of the fixed forms. -/
def textSp : Text := ['S', 'P']
def textAtHL : Text := ['[', 'H', 'L', ']']
def textAtHLI : Text := ['[', 'H', 'L', 'I', ']']
def textAtHLD : Text := ['[', 'H', 'L', 'D', ']']

/-- A hexadecimal digit as an upper-case character. -/
def hexChar (d : Nat) : Char := if d < 10 then Char.ofNat (48 + d) else Char.ofNat (55 + d)

/-- A magnitude below 65536 as `$` and four hexadecimal digits. -/
def hexLiteral (v : Nat) : Text :=
  ['$', hexChar (v / 4096 % 16), hexChar (v / 256 % 16), hexChar (v / 16 % 16), hexChar (v % 16)]

/-- An integer of the `n16` range as a literal. -/
def intLiteral (v : Int) : Text := if v < 0 then '-' :: hexLiteral v.natAbs else hexLiteral v.natAbs

/-- The operand text of what `p` and `print` show. -/
def PrintArg.text : PrintArg → Text
  | .lit v => intLiteral v
  | .reg8 r => r.text
  | .reg16 rr => rr.text
  | .sp => textSp
  | .atHL => textAtHL
  | .atHLI => textAtHLI
  | .atHLD => textAtHLD

/-- The mnemonic of an instruction. -/
def Instr.mnemonic : Instr → Mnemonic
  | .addN8 _ | .addR8 _ | .addInd | .addHl _ => .add
  | .adcN8 _ | .adcR8 _ | .adcInd => .adc
  | .subN8 _ | .subR8 _ | .subInd => .sub
  | .sbcN8 _ | .sbcR8 _ | .sbcInd => .sbc
  | .andN8 _ | .andR8 _ | .andInd => .and
  | .xorN8 _ | .xorR8 _ | .xorInd => .xor
  | .orN8 _ | .orR8 _ | .orInd => .or
  | .cpN8 _ | .cpR8 _ | .cpInd => .cp
  | .incR8 _ => .inc
  | .decR8 _ => .dec
  | .cpl => .cpl
  | .rrca => .rrca
  | .rlcR8 _ => .rlc
  | .rrcR8 _ => .rrc
  | .slaR8 _ => .sla
  | .sraR8 _ => .sra
  | .swapR8 _ => .swap
  | .srlR8 _ => .srl
  | .nop => .nop
  | .ldR16N16 _ _ | .ldIndR8 _ | .ldR8R8 _ _ | .ldR8N8 _ _ | .ldR8Ind _ | .ldIndN8 _ => .ld
  | .ldHliA | .ldHldA | .ldAHli | .ldAHld | .ldSpN16 _ | .ldSpHl => .ld
  | .push _ => .push
  | .pop _ => .pop
  | .p _ => .p
  | .print _ => .print
  | .r1 _ => .r1
  | .r2 _ => .r2
  | .r4 _ => .r4
  | .x1 _ _ => .x1
  | .x2 _ _ => .x2
  | .x4 _ _ => .x4
  | .status => .status

/-- The operand texts of an instruction. -/
def Instr.operandTexts : Instr → List Text
  | .addN8 n | .adcN8 n | .subN8 n | .sbcN8 n => [['A'], hexLiteral n.toNat]
  | .andN8 n | .xorN8 n | .orN8 n | .cpN8 n => [['A'], hexLiteral n.toNat]
  | .addR8 r | .adcR8 r | .subR8 r | .sbcR8 r => [['A'], r.text]
  | .andR8 r | .xorR8 r | .orR8 r | .cpR8 r => [['A'], r.text]
  | .addInd | .adcInd | .subInd | .sbcInd => [['A'], textAtHL]
  | .andInd | .xorInd | .orInd | .cpInd => [['A'], textAtHL]
  | .addHl rr => [['H', 'L'], rr.text]
  | .incR8 r | .decR8 r => [r.text]
  | .rlcR8 r | .rrcR8 r | .slaR8 r | .sraR8 r | .swapR8 r | .srlR8 r => [r.text]
  | .cpl | .rrca | .nop | .status => []
  | .ldR16N16 rr n => [rr.text, hexLiteral n.toNat]
  | .ldIndR8 r => [textAtHL, r.text]
  | .ldR8R8 dst src => [dst.text, src.text]
  | .ldR8N8 dst n => [dst.text, hexLiteral n.toNat]
  | .ldR8Ind dst => [dst.text, textAtHL]
  | .ldIndN8 n => [textAtHL, hexLiteral n.toNat]
  | .ldHliA => [textAtHLI, ['A']]
  | .ldHldA => [textAtHLD, ['A']]
  | .ldAHli => [['A'], textAtHLI]
  | .ldAHld => [['A'], textAtHLD]
  | .ldSpN16 n => [textSp, hexLiteral n.toNat]
  | .ldSpHl => [textSp, ['H', 'L']]
  | .push rr | .pop rr => [rr.text]
  | .p x | .print x => [x.text]
  | .r1 v | .r2 v | .r4 v => [intLiteral v]
  | .x1 o n | .x2 o n | .x4 o n => [intLiteral o, intLiteral n]

/-- The text command of an instruction. -/
def encodeText (i : Instr) : Command := { mnemonic := i.mnemonic.text, operands := i.operandTexts }

/-- The grade of an instruction's form (spec R76). -/
def Instr.grade : Instr → Grade
  | .addN8 _ | .addHl _ | .incR8 _ | .decR8 _ | .cpl | .rrca | .nop | .ldR16N16 _ _ | .ldIndR8 _ => .settled
  | .p _ | .print _ | .r1 _ | .r2 _ | .r4 _ | .x1 _ _ | .x2 _ _ | .x4 _ _ | .status => .settled
  | .addR8 _ | .addInd | .adcN8 _ | .adcR8 _ | .adcInd | .subN8 _ | .subR8 _ | .subInd => .inferred
  | .sbcN8 _ | .sbcR8 _ | .sbcInd | .xorN8 _ | .xorR8 _ | .xorInd => .inferred
  | .srlR8 _ | .swapR8 _ => .inferred
  | .ldR8R8 _ _ | .ldR8N8 _ _ | .ldR8Ind _ | .ldIndN8 _ | .ldHliA | .ldHldA | .ldAHli | .ldAHld => .inferred
  | .cpN8 _ | .cpR8 _ | .cpInd | .ldSpN16 _ | .ldSpHl | .push _ | .pop _ => .general
  | .andN8 _ | .andR8 _ | .andInd | .orN8 _ | .orR8 _ | .orInd => .general
  | .rlcR8 _ | .rrcR8 _ | .slaR8 _ | .sraR8 _ => .general

/-- Whether this instance gives the form a meaning: an `INFERRED_FORMS = false` instance adopts grade S only (spec
R76). -/
def formAdopted (params : Params) (i : Instr) : Bool := params.inferredForms || i.grade == .settled

/-! ## The annex: LR35902 bytes -/

/-- The register of a 3-bit field; the code 6 is `[HL]` (spec R81). -/
def r8OfCode : Nat → Option R8
  | 0 => some .b
  | 1 => some .c
  | 2 => some .d
  | 3 => some .e
  | 4 => some .h
  | 5 => some .l
  | 7 => some .a
  | _ => none

/-- The 3-bit field of a register (spec R81). -/
def r8Code : R8 → Nat
  | .b => 0
  | .c => 1
  | .d => 2
  | .e => 3
  | .h => 4
  | .l => 5
  | .a => 7

/-- The pair of a 2-bit field; the code 3 is SP or AF, which are no `r16` (spec R81). -/
def r16OfCode : Nat → Option R16
  | 0 => some .bc
  | 1 => some .de
  | 2 => some .hl
  | _ => none

/-- The 2-bit field of a pair (spec R81). -/
def r16Code : R16 → Nat
  | .bc => 0
  | .de => 1
  | .hl => 2

/-- The accumulator operation of a 3-bit field on a register (spec R81). -/
def aluR8 (o : Nat) (r : R8) : Option Instr :=
  match o with
  | 0 => some (.addR8 r)
  | 1 => some (.adcR8 r)
  | 2 => some (.subR8 r)
  | 3 => some (.sbcR8 r)
  | 4 => some (.andR8 r)
  | 5 => some (.xorR8 r)
  | 6 => some (.orR8 r)
  | 7 => some (.cpR8 r)
  | _ => none

/-- The accumulator operation of a 3-bit field on `[HL]` (spec R81). -/
def aluInd (o : Nat) : Option Instr :=
  match o with
  | 0 => some .addInd
  | 1 => some .adcInd
  | 2 => some .subInd
  | 3 => some .sbcInd
  | 4 => some .andInd
  | 5 => some .xorInd
  | 6 => some .orInd
  | 7 => some .cpInd
  | _ => none

/-- The accumulator operation of a 3-bit field on an immediate byte (spec R81). -/
def aluN8 (o : Nat) (n : Byte) : Option Instr :=
  match o with
  | 0 => some (.addN8 n)
  | 1 => some (.adcN8 n)
  | 2 => some (.subN8 n)
  | 3 => some (.sbcN8 n)
  | 4 => some (.andN8 n)
  | 5 => some (.xorN8 n)
  | 6 => some (.orN8 n)
  | 7 => some (.cpN8 n)
  | _ => none

/-- The rows of spec R82 whose code is the opcode byte alone. `hi` is bits 7..6, `mid` bits 5..3, `lo` bits 2..0. -/
def decodeOne (op : Byte) : Option Instr :=
  let hi := op.toNat / 64
  let mid := op.toNat / 8 % 8
  let lo := op.toNat % 8
  match hi, lo with
  | 0, 0 => if mid = 0 then some .nop else none
  | 0, 1 => if mid % 2 = 1 then (r16OfCode (mid / 2)).map .addHl else none
  | 0, 2 =>
    match mid with
    | 4 => some .ldHliA
    | 5 => some .ldAHli
    | 6 => some .ldHldA
    | 7 => some .ldAHld
    | _ => none
  | 0, 4 => (r8OfCode mid).map .incR8
  | 0, 5 => (r8OfCode mid).map .decR8
  | 0, 7 =>
    match mid with
    | 1 => some .rrca
    | 5 => some .cpl
    | _ => none
  | 1, _ =>
    match r8OfCode mid, r8OfCode lo with
    | some dst, some src => some (.ldR8R8 dst src)
    | some dst, none => some (.ldR8Ind dst)
    | none, some src => some (.ldIndR8 src)
    | none, none => none
  | 2, _ =>
    match r8OfCode lo with
    | some r => aluR8 mid r
    | none => aluInd mid
  | 3, 1 => if mid = 7 then some .ldSpHl else if mid % 2 = 0 then (r16OfCode (mid / 2)).map .pop else none
  | 3, 5 => if mid % 2 = 0 then (r16OfCode (mid / 2)).map .push else none
  | _, _ => none

/-- The rows of spec R82 with one immediate byte. -/
def decodeTwo (op n : Byte) : Option Instr :=
  let hi := op.toNat / 64
  let mid := op.toNat / 8 % 8
  let lo := op.toNat % 8
  match hi, lo with
  | 0, 6 =>
    match r8OfCode mid with
    | some r => some (.ldR8N8 r n)
    | none => some (.ldIndN8 n)
  | 3, 6 => aluN8 mid n
  | _, _ => none

/-- The rows of spec R82 behind the byte 0xCB: rotates, shifts and `swap` of a register. -/
def decodeCB (op : Byte) : Option Instr :=
  match op.toNat / 8, r8OfCode (op.toNat % 8) with
  | 0, some r => some (.rlcR8 r)
  | 1, some r => some (.rrcR8 r)
  | 4, some r => some (.slaR8 r)
  | 5, some r => some (.sraR8 r)
  | 6, some r => some (.swapR8 r)
  | 7, some r => some (.srlR8 r)
  | _, _ => none

/-- The rows of spec R82 with a 16-bit immediate. -/
def decodeThree (op : Byte) (n : Word) : Option Instr :=
  match op.toNat with
  | 0x01 => some (.ldR16N16 .bc n)
  | 0x11 => some (.ldR16N16 .de n)
  | 0x21 => some (.ldR16N16 .hl n)
  | 0x31 => some (.ldSpN16 n)
  | _ => none

/-- The immediate word of its two bytes, the low one first (spec R80). -/
def immWord (lo hi : Byte) : Word := BitVec.ofNat 16 (hi.toNat * 256 + lo.toNat)

/-- Decoding of the annex's bytes: the first instruction and the bytes after it, or none for bytes that no row of the
table begins (spec R80, R82). -/
def decode : List Byte → Option (Instr × List Byte)
  | [] => none
  | op :: rest =>
    match decodeOne op with
    | some i => some (i, rest)
    | none =>
      match rest with
      | [] => none
      | n :: rest =>
        match (if op = 0xCB then decodeCB n else decodeTwo op n) with
        | some i => some (i, rest)
        | none =>
          match rest with
          | [] => none
          | m :: rest => (decodeThree op (immWord n m)).map fun i => (i, rest)

/-- An opcode byte. -/
def opByte (n : Nat) : Byte := BitVec.ofNat 8 n

/-- The bytes of an instruction; none for the examine commands, which have no machine code (spec R82). -/
def encode : Instr → Option (List Byte)
  | .addN8 n => some [0xC6, n]
  | .adcN8 n => some [0xCE, n]
  | .subN8 n => some [0xD6, n]
  | .sbcN8 n => some [0xDE, n]
  | .andN8 n => some [0xE6, n]
  | .xorN8 n => some [0xEE, n]
  | .orN8 n => some [0xF6, n]
  | .cpN8 n => some [0xFE, n]
  | .addR8 r => some [opByte (0x80 + r8Code r)]
  | .adcR8 r => some [opByte (0x88 + r8Code r)]
  | .subR8 r => some [opByte (0x90 + r8Code r)]
  | .sbcR8 r => some [opByte (0x98 + r8Code r)]
  | .andR8 r => some [opByte (0xA0 + r8Code r)]
  | .xorR8 r => some [opByte (0xA8 + r8Code r)]
  | .orR8 r => some [opByte (0xB0 + r8Code r)]
  | .cpR8 r => some [opByte (0xB8 + r8Code r)]
  | .addInd => some [0x86]
  | .adcInd => some [0x8E]
  | .subInd => some [0x96]
  | .sbcInd => some [0x9E]
  | .andInd => some [0xA6]
  | .xorInd => some [0xAE]
  | .orInd => some [0xB6]
  | .cpInd => some [0xBE]
  | .addHl rr => some [opByte (0x09 + 16 * r16Code rr)]
  | .incR8 r => some [opByte (0x04 + 8 * r8Code r)]
  | .decR8 r => some [opByte (0x05 + 8 * r8Code r)]
  | .cpl => some [0x2F]
  | .rrca => some [0x0F]
  | .rlcR8 r => some [0xCB, opByte (0x00 + r8Code r)]
  | .rrcR8 r => some [0xCB, opByte (0x08 + r8Code r)]
  | .slaR8 r => some [0xCB, opByte (0x20 + r8Code r)]
  | .sraR8 r => some [0xCB, opByte (0x28 + r8Code r)]
  | .swapR8 r => some [0xCB, opByte (0x30 + r8Code r)]
  | .srlR8 r => some [0xCB, opByte (0x38 + r8Code r)]
  | .nop => some [0x00]
  | .ldR16N16 rr n => some [opByte (0x01 + 16 * r16Code rr), opByte n.toNat, opByte (n.toNat / 256)]
  | .ldIndR8 r => some [opByte (0x70 + r8Code r)]
  | .ldR8R8 dst src => some [opByte (0x40 + 8 * r8Code dst + r8Code src)]
  | .ldR8N8 dst n => some [opByte (0x06 + 8 * r8Code dst), n]
  | .ldR8Ind dst => some [opByte (0x46 + 8 * r8Code dst)]
  | .ldIndN8 n => some [0x36, n]
  | .ldHliA => some [0x22]
  | .ldHldA => some [0x32]
  | .ldAHli => some [0x2A]
  | .ldAHld => some [0x3A]
  | .ldSpN16 n => some [0x31, opByte n.toNat, opByte (n.toNat / 256)]
  | .ldSpHl => some [0xF9]
  | .push rr => some [opByte (0xC5 + 16 * r16Code rr)]
  | .pop rr => some [opByte (0xC1 + 16 * r16Code rr)]
  | .p _ | .print _ | .r1 _ | .r2 _ | .r4 _ | .x1 _ _ | .x2 _ _ | .x4 _ _ | .status => none

/-! ## The opcode table's words -/

/-- The bytes of a word whose first byte is the most significant: how spec/opcode_table.json numbers a row's bits (its
`fixed` of `add A, n8` is 0xC6 in bits 15..8, the immediate in bits 7..0). -/
def bytesFirstHigh : Nat → Nat → List Byte
  | 0, _ => []
  | n + 1, w => bytesFirstHigh n (w / 256) ++ [opByte w]

/-- The bytes of a word whose first byte is the least significant. -/
def bytesFirstLow : Nat → Nat → List Byte
  | 0, _ => []
  | n + 1, w => opByte w :: bytesFirstLow n (w / 256)

/-- The instruction that these bytes are, less operand bytes of zero at its end. -/
def decodeWhole (bs : List Byte) : Option Instr :=
  match bs, decode (bs ++ [0, 0]) with
  | _ :: _, some (i, rest) => if rest.length ≤ 2 then some i else none
  | _, _ => none

/-- The instruction of a row's word. The table numbers a row with its first byte most significant; a word that is no
instruction so is read with its first byte least significant (log entry 7). -/
def decodeTableWord (nbits w : Nat) : Option Instr :=
  let n := (nbits + 7) / 8
  match decodeWhole (bytesFirstHigh n w) with
  | some i => some i
  | none => decodeWhole (bytesFirstLow n w)

end Sys2Proof
end

