-- ==== Sys2Proof/Machine/State.lean ====
section
/-! DEFINITION. The state of the machine as plain data, the reasons a step can stop, and the state after reset.

The architectural state of the block is `regs` and `mem` and nothing else (spec R26). The other three fields are the
model's frame around it: the instance's parameters, the requests the host is still going to present (the command port
and the two access ports, spec R3, R237), and the ports' last answer, which no rule reads back. -/

namespace Sys2Proof.Machine

/-- Memory as the bytes that differ from `Config.freshByte`, addresses strictly rising (spec R25, R40). The canonical
form is `Memory.wf` in Machine/Ops.lean. -/
abbrev Memory := List Host.Cell

/-- One printed mark. A hexadecimal digit stands as its value, because the spec leaves its case open (spec R191,
91_not_in_source N19). -/
inductive Glyph where
  | ch (c : Char)
  | hex (d : BitVec 4)
deriving DecidableEq, Repr

/-- One row of a dump: its head `$xxxx:` and its items in order. What stands between two items, and whether an item
carries a `$`, is left open (spec R192, 91_not_in_source N19). -/
structure DumpRow where
  head : List Glyph
  items : List (List Glyph)
deriving DecidableEq, Repr

/-- What a completed request produces beside its effect on the state. -/
inductive Output where
  /-- No output. -/
  | none
  /-- The integer a port read returns. -/
  | value (v : Int)
  /-- The boolean a flag read returns. -/
  | flag (b : Bool)
  /-- The text of `r/N`. -/
  | text (t : List Glyph)
  /-- The rows of `x/N`. -/
  | dump (rows : List DumpRow)
  /-- What `status` shows: all register contents, and the flags line, the one line whose marks the spec gives (R193); its
  white space is left open, and the model puts none (DESIGN CHOICE, log entry 10). -/
  | status (regs : RegFile) (flagsLine : Text)
  /-- The value `p` and `print` show, in a format the spec leaves open. -/
  | printed (v : Int)
deriving DecidableEq, Repr

/-- The answer on the port a request came in on: success or one error (spec R3). -/
inductive Answer where
  | success (out : Output)
  | error (e : CmdError)
deriving DecidableEq, Repr

/-- The machine between two requests. -/
structure State where
  /-- The register file (spec R10 to R17). -/
  regs : RegFile
  /-- The 65536-byte memory (spec R25, R40). -/
  mem : Memory
  /-- MODEL'S OWN: the parameters the instance was built with; no step changes them. -/
  params : Params
  /-- MODEL'S OWN: what the host is going to present, oldest first (spec R234, R237). -/
  pending : List Request
  /-- MODEL'S OWN: the answer to the request last served; no step reads it. -/
  answer : Option Answer
deriving DecidableEq, Repr

/-- A fault: the machine stops. The block has none, so this type has no constructor: each of its five errors is a
defined answer after which the next request is served (spec R207, R218), and every command terminates (spec R238). -/
inductive Fault where
deriving DecidableEq, Repr

/-- A refusal: the model gives the request no meaning. -/
inductive Refusal where
  /-- An instruction without a meaning, by its mnemonic. Raised by no arm of `exec` (every instruction has its
  meaning). Safe. -/
  | notModelled (mnemonic : String)
  /-- A form graded I or G met on an instance with `INFERRED_FORMS = false`: there the spec itself has the model refuse
  the form and not answer it with an error (spec R76). Raised by `runCommand` in Machine/CommandPort.lean. Safe. -/
  | formNotAdopted
deriving DecidableEq, Repr

/-- An instance just created: memory all `Config.freshByte`, the register file as given, nothing presented yet
(spec R230). -/
def State.create (regs : RegFile) (params : Params) : State :=
  { regs := regs, mem := [], params := params, pending := [], answer := none }

/-- The machine right after reset, every parameter at the spec's default (spec R27, R230). -/
def State.reset : State := State.create Config.resetRegs Config.params

end Sys2Proof.Machine
end

