-- ==== Sys2Proof/Machine/Ops.lean ====
section
/-! DEFINITION. The named operations over memory and registers, the answer a request ends with, and raising an error. -/

namespace Sys2Proof.Machine

/-! ## Memory -/

/-- How many bytes an access of this width covers (spec R41 to R43). -/
def widthBytes : Width → Nat
  | .byte => 1
  | .word => 2
  | .dword => 4

/-- The canonical form from a lowest admissible address on: addresses rise strictly and stay below 0x10000, and no
entry holds the byte an unlisted address reads as. -/
def Memory.wfFrom : Nat → Memory → Bool
  | _, [] => true
  | lo, (k, b) :: rest =>
    decide (lo ≤ k) && decide (k < 0x10000) && decide (b ≠ Config.freshByte) && Memory.wfFrom (k + 1) rest

/-- The canonical form of memory. -/
def Memory.wf (m : Memory) : Bool := Memory.wfFrom 0 m

/-- The byte at an address: the last value written, or the fresh byte (spec R49). -/
def Memory.read : Memory → Nat → Byte
  | [], _ => Config.freshByte
  | (k, b) :: rest, addr => if addr = k then b else Memory.read rest addr

/-- Stores one byte and keeps the canonical form: storing the fresh byte removes the entry (spec R41). -/
def Memory.write : Memory → Nat → Byte → Memory
  | [], addr, v => if v = Config.freshByte then [] else [(addr, v)]
  | (k, b) :: rest, addr, v =>
    if addr < k then (if v = Config.freshByte then (k, b) :: rest else (addr, v) :: (k, b) :: rest)
    else if addr = k then (if v = Config.freshByte then rest else (addr, v) :: rest)
    else (k, b) :: Memory.write rest addr v

/-- The little-endian value of `n` bytes from an address on (spec R42, R43). -/
def Memory.readLE (m : Memory) : Nat → Nat → Nat
  | _, 0 => 0
  | addr, n + 1 => (m.read addr).toNat + 256 * Memory.readLE m (addr + 1) n

/-- Stores the low `n` bytes of a value, lowest byte at the lowest address (spec R42, R43). -/
def Memory.writeLE : Memory → Nat → Nat → Nat → Memory
  | m, _, 0, _ => m
  | m, addr, n + 1, v => Memory.writeLE (m.write addr (BitVec.ofNat 8 v)) (addr + 1) n (v / 256)

/-- The bound of every access: it lies in 0..0xFFFF whole; nothing wraps (spec R44). -/
def inBounds (addr : Int) (w : Width) : Bool :=
  decide (0 ≤ addr) && decide (addr.toNat + widthBytes w ≤ 0x10000)

/-- `MemRead`: the value, or none for a RangeError (spec R56). -/
def memRead (m : Memory) (addr : Int) (w : Width) : Option Nat :=
  if inBounds addr w then some (m.readLE addr.toNat (widthBytes w)) else none

/-- `MemWrite`: the memory after the store, or none for a RangeError with nothing stored (spec R56). -/
def memWrite (m : Memory) (addr : Int) (w : Width) (v : Nat) : Option Memory :=
  if inBounds addr w then some (m.writeLE addr.toNat (widthBytes w) v) else none

/-! ## Registers -/

/-- The 16-bit value of a register pair: the first-named byte is the high one (spec R12). -/
def pair (hi lo : Byte) : Word := BitVec.ofNat 16 (hi.toNat * 256 + lo.toNat)

/-- Bits 15..8 of a pair's value (spec R12). -/
def hiByte (v : Word) : Byte := BitVec.ofNat 8 (v.toNat / 256)

/-- Bits 7..0 of a pair's value (spec R12). -/
def loByte (v : Word) : Byte := BitVec.ofNat 8 v.toNat

/-- `R8[r]` on the register file (spec R11). -/
def regGet8 (x : RegFile) : Reg8 → Byte
  | .a => x.a
  | .f => x.f
  | .b => x.b
  | .c => x.c
  | .d => x.d
  | .e => x.e
  | .h => x.h
  | .l => x.l

/-- `R8[r] <- v` on the register file: one byte and no other (spec R11). -/
def regSet8 (x : RegFile) : Reg8 → Byte → RegFile
  | .a, v => { x with a := v }
  | .f, v => { x with f := v }
  | .b, v => { x with b := v }
  | .c, v => { x with c := v }
  | .d, v => { x with d := v }
  | .e, v => { x with e := v }
  | .h, v => { x with h := v }
  | .l, v => { x with l := v }

/-- `R16[rr]` on the register file (spec R12). -/
def regGet16 (x : RegFile) : Reg16 → Word
  | .af => pair x.a x.f
  | .bc => pair x.b x.c
  | .de => pair x.d x.e
  | .hl => pair x.h x.l
  | .pc => pair x.pch x.pcl
  | .sp => pair x.sph x.spl

/-- `R16[rr] <- v` on the register file: the pair's two bytes and no other (spec R12, R13). -/
def regSet16 (x : RegFile) : Reg16 → Word → RegFile
  | .af, v => { x with a := hiByte v, f := loByte v }
  | .bc, v => { x with b := hiByte v, c := loByte v }
  | .de, v => { x with d := hiByte v, e := loByte v }
  | .hl, v => { x with h := hiByte v, l := loByte v }
  | .pc, v => { x with pch := hiByte v, pcl := loByte v }
  | .sp, v => { x with sph := hiByte v, spl := loByte v }

/-- `R8[r]`. -/
def State.reg8 (s : State) (r : Reg8) : Byte := regGet8 s.regs r

/-- `R8[r] <- v`. -/
def State.setReg8 (s : State) (r : Reg8) (v : Byte) : State := { s with regs := regSet8 s.regs r v }

/-- `R16[rr]`. -/
def State.reg16 (s : State) (rr : Reg16) : Word := regGet16 s.regs rr

/-- `R16[rr] <- v`. -/
def State.setReg16 (s : State) (rr : Reg16) (v : Word) : State := { s with regs := regSet16 s.regs rr v }

/-- The state with another memory. -/
def State.setMem (s : State) (m : Memory) : State := { s with mem := m }

/-! ## How a request ends -/

/-- The state with the port's answer. -/
def State.answered (s : State) (x : Answer) : State := { s with answer := some x }

/-- A request that completes: its effect stands and the port answers success. -/
def complete (out : Output) (s : State) : Host.Outcome State Fault Refusal := .next (s.answered (.success out))

/-- RAISING AN ERROR, the block's one kind of exception. It saves nothing, changes no register, no memory byte and no
mode, goes nowhere, and there is no return from it; its whole effect is the answer (spec R206, R207, R211, R212). -/
def raise (e : CmdError) (s : State) : Host.Outcome State Fault Refusal := .next (s.answered (.error e))

end Sys2Proof.Machine
end

