-- ==== Sys2Proof/Machine/Flags.lean ====
section
/-! DEFINITION. The flags and the semantics kernel: each kernel function takes its operands (and the incoming flags
byte where it reads it) and returns the result with the packed flags byte. It stores nothing. -/

namespace Sys2Proof.Machine

/-! ## The flags byte -/

/-- `Z<<7 | N<<6 | H<<5 | C<<4`; the low nibble is 0 (spec R107). -/
def pack (z n h c : Bool) : Byte :=
  BitVec.ofNat 8 (z.toNat <<< 7 ||| n.toNat <<< 6 ||| h.toNat <<< 5 ||| c.toNat <<< 4)

/-- The place of a flag in F (spec R15). -/
def flagBit : Flag → Nat
  | .z => 7
  | .n => 6
  | .h => 5
  | .c => 4

/-- A flag of a flags byte (spec R15). -/
def flagOf (f : Byte) (x : Flag) : Bool := f.getLsbD (flagBit x)

/-- `currentCarry(f)` (spec R107). -/
def carryOf (f : Byte) : Bool := flagOf f .c

/-- `zero(f)` (spec R107). -/
def zeroOf (f : Byte) : Bool := flagOf f .z

/-- The mask of a flag (spec R20). -/
def flagMask (x : Flag) : Byte := BitVec.ofNat 8 (1 <<< flagBit x)

/-- F with one flag set or cleared and every other bit kept (spec R20). -/
def withFlag (f : Byte) (x : Flag) (b : Bool) : Byte := (f &&& ~~~ flagMask x) ||| (if b then flagMask x else 0)

/-- A flag of the machine's F register (spec R15). -/
def State.flag (s : State) (x : Flag) : Bool := flagOf (s.reg8 .f) x

/-! ## Arithmetic (40_arith section 1) -/

/-- `add8(a, x)`, x in 0..256 (spec R100). -/
def add8 (a : Byte) (x : Nat) : Byte × Byte :=
  let result : Byte := BitVec.ofNat 8 (a.toNat + x)
  (result, pack (result == 0) false ((a.toNat ^^^ x ^^^ result.toNat).testBit 4) (decide (256 ≤ a.toNat + x)))

/-- `adc8(a, x, f)`: the carry joins x before the half-carry is formed (spec R101). -/
def adc8 (a x f : Byte) : Byte × Byte := add8 a (x.toNat + (carryOf f).toNat)

/-- `sub8(a, x)`, x in 0..256 (spec R102). -/
def sub8 (a : Byte) (x : Nat) : Byte × Byte :=
  let result : Byte := BitVec.ofInt 8 ((a.toNat : Int) - x)
  (result, pack (result == 0) true (decide (((a.toNat % 16 : Nat) : Int) - ((x % 16 : Nat) : Int) < 0))
    (decide ((a.toNat : Int) - x < 0)))

/-- `sbc8(a, x, f)`: the borrow joins x first (spec R103). -/
def sbc8 (a x f : Byte) : Byte × Byte := sub8 a (x.toNat + (carryOf f).toNat)

/-- `add16(hl, x, f)`: Z is the incoming Z; N = 0 by decision D5 (spec R104). -/
def add16 (hl x : Word) (f : Byte) : Word × Byte :=
  let result : Word := BitVec.ofNat 16 (hl.toNat + x.toNat)
  (result, pack (zeroOf f) false ((hl.toNat ^^^ x.toNat ^^^ result.toNat).testBit 12)
    (decide (65536 ≤ hl.toNat + x.toNat)))

/-- `inc8(x, f)`: C is the incoming C; H by decision D4 (spec R105). -/
def inc8 (x f : Byte) : Byte × Byte :=
  let result : Byte := BitVec.ofNat 8 (x.toNat + 1)
  (result, pack (result == 0) false (decide (x.toNat % 16 = 15)) (carryOf f))

/-- `dec8(x, f)`: C is the incoming C (spec R106). -/
def dec8 (x f : Byte) : Byte × Byte :=
  let result : Byte := BitVec.ofInt 8 ((x.toNat : Int) - 1)
  (result, pack (result == 0) true (decide (x.toNat % 16 = 0)) (carryOf f))

/-! ## Logic (41_logic) -/

/-- `xor8(a, x)` (spec R130). -/
def xor8 (a x : Byte) : Byte × Byte :=
  let result := a ^^^ x
  (result, pack (result == 0) false false false)

/-- `and8(a, x)`: H is always set (spec R133). -/
def and8 (a x : Byte) : Byte × Byte :=
  let result := a &&& x
  (result, pack (result == 0) false true false)

/-- `or8(a, x)` (spec R135). -/
def or8 (a x : Byte) : Byte × Byte :=
  let result := a ||| x
  (result, pack (result == 0) false false false)

/-- `cpl`'s result and its merged flags: N and H set, every other bit of F kept (spec R132). -/
def cpl8 (a f : Byte) : Byte × Byte := (a ^^^ 0xFF, f ||| 0x60)

/-! ## Rotate and shift (42_rotate_shift) -/

/-- `rrca(a)`: Z is cleared even on a zero result (spec R140). -/
def rrca8 (a : Byte) : Byte × Byte :=
  ((a >>> 1) ||| ((a &&& 1) <<< 7), pack false false false (a.getLsbD 0))

/-- `srl(x)` (spec R142). -/
def srl8 (x : Byte) : Byte × Byte :=
  let result := x >>> 1
  (result, pack (result == 0) false false (x.getLsbD 0))

/-- `swap(x)` (spec R144). -/
def swap8 (x : Byte) : Byte × Byte :=
  let result := ((x &&& 0x0F) <<< 4) ||| (x >>> 4)
  (result, pack (result == 0) false false false)

/-- `rlc8(x)` (spec R146). -/
def rlc8 (x : Byte) : Byte × Byte :=
  let result := (x <<< 1) ||| (x >>> 7)
  (result, pack (result == 0) false false (x.getLsbD 7))

/-- `rrc8(x)` (spec R147). -/
def rrc8 (x : Byte) : Byte × Byte :=
  let result := (x >>> 1) ||| ((x &&& 1) <<< 7)
  (result, pack (result == 0) false false (x.getLsbD 0))

/-- `sla8(x)` (spec R148). -/
def sla8 (x : Byte) : Byte × Byte :=
  let result := x <<< 1
  (result, pack (result == 0) false false (x.getLsbD 7))

/-- `sra8(x)` (spec R149). -/
def sra8 (x : Byte) : Byte × Byte :=
  let result := (x >>> 1) ||| (x &&& 0x80)
  (result, pack (result == 0) false false (x.getLsbD 0))

end Sys2Proof.Machine
end

