-- ==== Sys2Proof/Machine/Operands.lean ====
section
/-! DEFINITION. Every operand form: the registers operand names stand for, the `[HL]` access with its stepping, the
stack addresses, and the value of a printed operand (spec R77, 43_load_store section 5). -/

namespace Sys2Proof.Machine

/-- The register an operand of kind `r8` names (spec R67). -/
def r8Reg : R8 → Reg8
  | .a => .a
  | .b => .b
  | .c => .c
  | .d => .d
  | .e => .e
  | .h => .h
  | .l => .l

/-- The pair an operand of kind `r16` names (spec R67). -/
def r16Reg : R16 → Reg16
  | .bc => .bc
  | .de => .de
  | .hl => .hl

/-- The value of an operand of kind `r8` (spec R77). -/
def valR8 (s : State) (r : R8) : Byte := s.reg8 (r8Reg r)

/-- The value of an operand of kind `r16` (spec R77). -/
def valR16 (s : State) (rr : R16) : Word := s.reg16 (r16Reg rr)

/-- The effective address of `[HL]`, `[HLI]` and `[HLD]`: the HL of before (spec R176). -/
def hlAddr (s : State) : Int := (s.reg16 .hl).toNat

/-- Reads the byte at HL and goes on with it; a RangeError if the access were out of bounds (spec R77). -/
def withInd (k : Byte → State → Host.Outcome State Fault Refusal) (s : State) : Host.Outcome State Fault Refusal :=
  match memRead s.mem (hlAddr s) .byte with
  | none => raise .range s
  | some v => k (BitVec.ofNat 8 v) s

/-- Stores a byte at HL and goes on; a RangeError with nothing stored if the access were out of bounds (spec R162). -/
def storeInd (v : Byte) (k : State → Host.Outcome State Fault Refusal) (s : State) :
    Host.Outcome State Fault Refusal :=
  match memWrite s.mem (hlAddr s) .byte v.toNat with
  | none => raise .range s
  | some m => k (s.setMem m)

/-- HL one up, modulo 65536: the stepping of `[HLI]` (spec R176, decision D14). -/
def incHl (s : State) : State := s.setReg16 .hl (s.reg16 .hl + 1)

/-- HL one down, modulo 65536: the stepping of `[HLD]` (spec R176, decision D14). -/
def decHl (s : State) : State := s.setReg16 .hl (s.reg16 .hl - 1)

/-- Where `push` stores: SP - 2 modulo 65536 (spec R174). -/
def pushAddr (s : State) : Word := s.reg16 .sp - 2

/-- SP after `pop`: SP + 2 modulo 65536 (spec R175). -/
def popSp (s : State) : Word := s.reg16 .sp + 2

/-- The value `p` and `print` show for an operand (spec R190). -/
def printValue (s : State) : PrintArg → Int
  | .lit v => v
  | .reg8 r => (valR8 s r).toNat
  | .reg16 rr => (valR16 s rr).toNat
  | .sp => (s.reg16 .sp).toNat
  | .atHL => (s.mem.read (hlAddr s).toNat).toNat
  | .atHLI => (s.mem.read (hlAddr s).toNat).toNat
  | .atHLD => (s.mem.read (hlAddr s).toNat).toNat

end Sys2Proof.Machine
end

