-- ==== Sys2Proof/Machine/Arith.lean ====
section
/-! DEFINITION. The arithmetic commands: add, adc, sub, sbc, cp, the 16-bit add, inc, dec (40_arith section 2). -/

namespace Sys2Proof.Machine

/-- Commits a kernel result to A and its flags byte to F (spec R110, R16). -/
def commitA (x : Byte × Byte) (s : State) : Host.Outcome State Fault Refusal :=
  complete .none ((s.setReg8 .a x.1).setReg8 .f x.2)

/-- Commits a kernel result to an operand register and its flags byte to F (spec R116, R16). -/
def commitR8 (r : R8) (x : Byte × Byte) (s : State) : Host.Outcome State Fault Refusal :=
  complete .none ((s.setReg8 (r8Reg r) x.1).setReg8 .f x.2)

/-- `add A, x`. -/
def addWith (x : Byte) (s : State) : Host.Outcome State Fault Refusal := commitA (add8 (s.reg8 .a) x.toNat) s

/-- `adc A, x`. -/
def adcWith (x : Byte) (s : State) : Host.Outcome State Fault Refusal := commitA (adc8 (s.reg8 .a) x (s.reg8 .f)) s

/-- `sub A, x`. -/
def subWith (x : Byte) (s : State) : Host.Outcome State Fault Refusal := commitA (sub8 (s.reg8 .a) x.toNat) s

/-- `sbc A, x`. -/
def sbcWith (x : Byte) (s : State) : Host.Outcome State Fault Refusal := commitA (sbc8 (s.reg8 .a) x (s.reg8 .f)) s

/-- `cp A, x`: the flags of `sub A, x`; A is not written. -/
def cpWith (x : Byte) (s : State) : Host.Outcome State Fault Refusal :=
  complete .none (s.setReg8 .f (sub8 (s.reg8 .a) x.toNat).2)

/-- `add A, n8` (spec R110). -/
def execAddN8 (n : Byte) (s : State) : Host.Outcome State Fault Refusal := addWith n s

/-- `add A, r8` (spec R110). -/
def execAddR8 (r : R8) (s : State) : Host.Outcome State Fault Refusal := addWith (valR8 s r) s

/-- `add A, [HL]` (spec R110). -/
def execAddInd (s : State) : Host.Outcome State Fault Refusal := withInd addWith s

/-- `adc A, n8` (spec R111). -/
def execAdcN8 (n : Byte) (s : State) : Host.Outcome State Fault Refusal := adcWith n s

/-- `adc A, r8` (spec R111). -/
def execAdcR8 (r : R8) (s : State) : Host.Outcome State Fault Refusal := adcWith (valR8 s r) s

/-- `adc A, [HL]` (spec R111). -/
def execAdcInd (s : State) : Host.Outcome State Fault Refusal := withInd adcWith s

/-- `sub A, n8` (spec R112). -/
def execSubN8 (n : Byte) (s : State) : Host.Outcome State Fault Refusal := subWith n s

/-- `sub A, r8` (spec R112). -/
def execSubR8 (r : R8) (s : State) : Host.Outcome State Fault Refusal := subWith (valR8 s r) s

/-- `sub A, [HL]` (spec R112). -/
def execSubInd (s : State) : Host.Outcome State Fault Refusal := withInd subWith s

/-- `sbc A, n8` (spec R113). -/
def execSbcN8 (n : Byte) (s : State) : Host.Outcome State Fault Refusal := sbcWith n s

/-- `sbc A, r8` (spec R113). -/
def execSbcR8 (r : R8) (s : State) : Host.Outcome State Fault Refusal := sbcWith (valR8 s r) s

/-- `sbc A, [HL]` (spec R113). -/
def execSbcInd (s : State) : Host.Outcome State Fault Refusal := withInd sbcWith s

/-- `cp A, n8` (spec R114). -/
def execCpN8 (n : Byte) (s : State) : Host.Outcome State Fault Refusal := cpWith n s

/-- `cp A, r8` (spec R114). -/
def execCpR8 (r : R8) (s : State) : Host.Outcome State Fault Refusal := cpWith (valR8 s r) s

/-- `cp A, [HL]` (spec R114). -/
def execCpInd (s : State) : Host.Outcome State Fault Refusal := withInd cpWith s

/-- `add HL, r16` (spec R115). -/
def execAddHl (rr : R16) (s : State) : Host.Outcome State Fault Refusal :=
  let x := add16 (s.reg16 .hl) (valR16 s rr) (s.reg8 .f)
  complete .none ((s.setReg16 .hl x.1).setReg8 .f x.2)

/-- `inc r8` (spec R116). -/
def execIncR8 (r : R8) (s : State) : Host.Outcome State Fault Refusal := commitR8 r (inc8 (valR8 s r) (s.reg8 .f)) s

/-- `dec r8` (spec R117). -/
def execDecR8 (r : R8) (s : State) : Host.Outcome State Fault Refusal := commitR8 r (dec8 (valR8 s r) (s.reg8 .f)) s

end Sys2Proof.Machine
end

