-- ==== Sys2Proof/Machine/Examine.lean ====
section
/-! DEFINITION. The examine commands: p, print, r/N, x/N, status (44_examine). They change no state. -/

namespace Sys2Proof.Machine

/-- The `n` hexadecimal digits of a value, most significant first (spec R191). -/
def hexDigits : Nat → Nat → List Glyph
  | 0, _ => []
  | n + 1, v => hexDigits n (v / 16) ++ [.hex (BitVec.ofNat 4 v)]

/-- `$` and the digits of a value of the given width (spec R191). -/
def hexText (w : Width) (v : Nat) : List Glyph := .ch '$' :: hexDigits (2 * widthBytes w) v

/-- Shows the value of an operand (spec R190). -/
def showOperand (x : PrintArg) (s : State) : Host.Outcome State Fault Refusal := complete (.printed (printValue s x)) s

/-- `r/N a`: a RangeError for an address below 0 or past 0x10000 - N (spec R191). -/
def examine (w : Width) (addr : Int) (s : State) : Host.Outcome State Fault Refusal :=
  match memRead s.mem addr w with
  | none => raise .range s
  | some v => complete (.text (hexText w v)) s

/-- The digits of item `i` of a dump (spec R192). -/
def dumpItem (m : Memory) (w : Width) (offset i : Nat) : List Glyph :=
  hexDigits (2 * widthBytes w) (m.readLE (offset + i * widthBytes w) (widthBytes w))

/-- Row `k` of a dump of `count` items: its starting address and its at most 16 items (spec R192). -/
def dumpRow (m : Memory) (w : Width) (offset count k : Nat) : DumpRow :=
  { head := .ch '$' :: hexDigits 4 (offset + 16 * k * widthBytes w) ++ [.ch ':'],
    items := (List.range (min 16 (count - 16 * k))).map fun j => dumpItem m w offset (16 * k + j) }

/-- The rows of a dump (spec R192). -/
def dumpRows (m : Memory) (w : Width) (offset count : Nat) : List DumpRow :=
  (List.range ((count + 15) / 16)).map (dumpRow m w offset count)

/-- `x/N o, c`: the whole dump is checked before anything is shown (spec R192). -/
def dump (w : Width) (offset count : Int) (s : State) : Host.Outcome State Fault Refusal :=
  if offset < 0 ∨ count < 0 ∨ offset + count * widthBytes w > 0x10000 then raise .range s
  else complete (.dump (dumpRows s.mem w offset.toNat count.toNat)) s

/-- A flag's letter, or `-` when it is clear (spec R193). -/
def flagLetter (letter : Char) (b : Bool) : Char := if b then letter else '-'

/-- The flags line of `status`: the letters in the order Z, N, H, C inside brackets (spec R193). White space in this line
is left open by R193; that there is none is the model's choice, DESIGN CHOICE, log entry 10. -/
def flagsLine (f : Byte) : Text :=
  ['[', flagLetter 'Z' (flagOf f .z), flagLetter 'N' (flagOf f .n), flagLetter 'H' (flagOf f .h),
    flagLetter 'C' (flagOf f .c), ']']

/-- `p x` (spec R190). -/
def execP (x : PrintArg) (s : State) : Host.Outcome State Fault Refusal := showOperand x s

/-- `print x`, the other spelling of the same handler (spec R72, R190). -/
def execPrint (x : PrintArg) (s : State) : Host.Outcome State Fault Refusal := showOperand x s

/-- `r/1 a` (spec R191). -/
def execR1 (addr : Int) (s : State) : Host.Outcome State Fault Refusal := examine .byte addr s

/-- `r/2 a` (spec R191). -/
def execR2 (addr : Int) (s : State) : Host.Outcome State Fault Refusal := examine .word addr s

/-- `r/4 a` (spec R191). -/
def execR4 (addr : Int) (s : State) : Host.Outcome State Fault Refusal := examine .dword addr s

/-- `x/1 o, c` (spec R192). -/
def execX1 (offset count : Int) (s : State) : Host.Outcome State Fault Refusal := dump .byte offset count s

/-- `x/2 o, c` (spec R192). -/
def execX2 (offset count : Int) (s : State) : Host.Outcome State Fault Refusal := dump .word offset count s

/-- `x/4 o, c` (spec R192). -/
def execX4 (offset count : Int) (s : State) : Host.Outcome State Fault Refusal := dump .dword offset count s

/-- `status` (spec R193). -/
def execStatus (s : State) : Host.Outcome State Fault Refusal :=
  complete (.status s.regs (flagsLine (s.reg8 .f))) s

end Sys2Proof.Machine
end

