-- ==== Sys2Proof/Machine/LoadStore.lean ====
section
/-! DEFINITION. nop, the twelve forms of ld, push and pop (43_load_store). None of them reads or writes F. -/

namespace Sys2Proof.Machine

/-- `nop`: nothing changes (spec R160). -/
def execNop (s : State) : Host.Outcome State Fault Refusal := complete .none s

/-- `ld r16, n16` (spec R161). -/
def execLdR16N16 (rr : R16) (n : Word) (s : State) : Host.Outcome State Fault Refusal :=
  complete .none (s.setReg16 (r16Reg rr) n)

/-- `ld [HL], r8` (spec R162). -/
def execLdIndR8 (r : R8) (s : State) : Host.Outcome State Fault Refusal := storeInd (valR8 s r) (complete .none) s

/-- `ld r8, r8` (spec R163). -/
def execLdR8R8 (dst src : R8) (s : State) : Host.Outcome State Fault Refusal :=
  complete .none (s.setReg8 (r8Reg dst) (valR8 s src))

/-- `ld r8, n8` (spec R164). -/
def execLdR8N8 (dst : R8) (n : Byte) (s : State) : Host.Outcome State Fault Refusal :=
  complete .none (s.setReg8 (r8Reg dst) n)

/-- `ld r8, [HL]`: the address is the HL of before, also for H and L (spec R165). -/
def execLdR8Ind (dst : R8) (s : State) : Host.Outcome State Fault Refusal :=
  withInd (fun v s => complete .none (s.setReg8 (r8Reg dst) v)) s

/-- `ld [HL], n8` (spec R166). -/
def execLdIndN8 (n : Byte) (s : State) : Host.Outcome State Fault Refusal := storeInd n (complete .none) s

/-- `ld [HLI], A` (spec R167, R176). -/
def execLdHliA (s : State) : Host.Outcome State Fault Refusal :=
  storeInd (s.reg8 .a) (fun s => complete .none (incHl s)) s

/-- `ld [HLD], A` (spec R168, R176). -/
def execLdHldA (s : State) : Host.Outcome State Fault Refusal :=
  storeInd (s.reg8 .a) (fun s => complete .none (decHl s)) s

/-- `ld A, [HLI]` (spec R169, R176). -/
def execLdAHli (s : State) : Host.Outcome State Fault Refusal :=
  withInd (fun v s => complete .none (incHl (s.setReg8 .a v))) s

/-- `ld A, [HLD]` (spec R170, R176). -/
def execLdAHld (s : State) : Host.Outcome State Fault Refusal :=
  withInd (fun v s => complete .none (decHl (s.setReg8 .a v))) s

/-- `ld SP, n16` (spec R171). -/
def execLdSpN16 (n : Word) (s : State) : Host.Outcome State Fault Refusal := complete .none (s.setReg16 .sp n)

/-- `ld SP, HL` (spec R172). -/
def execLdSpHl (s : State) : Host.Outcome State Fault Refusal := complete .none (s.setReg16 .sp (s.reg16 .hl))

/-- `push r16`: a RangeError if the word at SP - 2 would cross the end of memory, which is when SP is 1 (spec R174). -/
def execPush (rr : R16) (s : State) : Host.Outcome State Fault Refusal :=
  match memWrite s.mem (pushAddr s).toNat .word (valR16 s rr).toNat with
  | none => raise .range s
  | some m => complete .none ((s.setMem m).setReg16 .sp (pushAddr s))

/-- `pop r16`: a RangeError if the word at SP would cross the end of memory, which is when SP is 0xFFFF (spec R175). -/
def execPop (rr : R16) (s : State) : Host.Outcome State Fault Refusal :=
  match memRead s.mem (s.reg16 .sp).toNat .word with
  | none => raise .range s
  | some v => complete .none ((s.setReg16 (r16Reg rr) (BitVec.ofNat 16 v)).setReg16 .sp (popSp s))

end Sys2Proof.Machine
end

