-- ==== Sys2Proof/Machine/Logic.lean ====
section
/-! DEFINITION. The logic commands: xor, cpl, and the `EXT_OPS` commands and, or (41_logic). -/

namespace Sys2Proof.Machine

/-- `xor A, x`. -/
def xorWith (x : Byte) (s : State) : Host.Outcome State Fault Refusal := commitA (xor8 (s.reg8 .a) x) s

/-- `and A, x`. -/
def andWith (x : Byte) (s : State) : Host.Outcome State Fault Refusal := commitA (and8 (s.reg8 .a) x) s

/-- `or A, x`. -/
def orWith (x : Byte) (s : State) : Host.Outcome State Fault Refusal := commitA (or8 (s.reg8 .a) x) s

/-- `xor A, n8` (spec R131). -/
def execXorN8 (n : Byte) (s : State) : Host.Outcome State Fault Refusal := xorWith n s

/-- `xor A, r8` (spec R131). -/
def execXorR8 (r : R8) (s : State) : Host.Outcome State Fault Refusal := xorWith (valR8 s r) s

/-- `xor A, [HL]` (spec R131). -/
def execXorInd (s : State) : Host.Outcome State Fault Refusal := withInd xorWith s

/-- `and A, n8` (spec R134). -/
def execAndN8 (n : Byte) (s : State) : Host.Outcome State Fault Refusal := andWith n s

/-- `and A, r8` (spec R134). -/
def execAndR8 (r : R8) (s : State) : Host.Outcome State Fault Refusal := andWith (valR8 s r) s

/-- `and A, [HL]` (spec R134). -/
def execAndInd (s : State) : Host.Outcome State Fault Refusal := withInd andWith s

/-- `or A, n8` (spec R136). -/
def execOrN8 (n : Byte) (s : State) : Host.Outcome State Fault Refusal := orWith n s

/-- `or A, r8` (spec R136). -/
def execOrR8 (r : R8) (s : State) : Host.Outcome State Fault Refusal := orWith (valR8 s r) s

/-- `or A, [HL]` (spec R136). -/
def execOrInd (s : State) : Host.Outcome State Fault Refusal := withInd orWith s

/-- `cpl` (spec R132). -/
def execCpl (s : State) : Host.Outcome State Fault Refusal := commitA (cpl8 (s.reg8 .a) (s.reg8 .f)) s

end Sys2Proof.Machine
end

