-- ==== Sys2Proof/Machine/Rotate.lean ====
section
/-! DEFINITION. The rotates and shifts: rrca, srl, swap, and the `EXT_OPS` commands rlc, rrc, sla, sra
(42_rotate_shift). -/

namespace Sys2Proof.Machine

/-- `rrca` (spec R141). -/
def execRrca (s : State) : Host.Outcome State Fault Refusal := commitA (rrca8 (s.reg8 .a)) s

/-- `srl r8` (spec R143). -/
def execSrlR8 (r : R8) (s : State) : Host.Outcome State Fault Refusal := commitR8 r (srl8 (valR8 s r)) s

/-- `swap r8` (spec R145). -/
def execSwapR8 (r : R8) (s : State) : Host.Outcome State Fault Refusal := commitR8 r (swap8 (valR8 s r)) s

/-- `rlc r8` (spec R150). -/
def execRlcR8 (r : R8) (s : State) : Host.Outcome State Fault Refusal := commitR8 r (rlc8 (valR8 s r)) s

/-- `rrc r8` (spec R150). -/
def execRrcR8 (r : R8) (s : State) : Host.Outcome State Fault Refusal := commitR8 r (rrc8 (valR8 s r)) s

/-- `sla r8` (spec R150). -/
def execSlaR8 (r : R8) (s : State) : Host.Outcome State Fault Refusal := commitR8 r (sla8 (valR8 s r)) s

/-- `sra r8` (spec R150). -/
def execSraR8 (r : R8) (s : State) : Host.Outcome State Fault Refusal := commitR8 r (sra8 (valR8 s r)) s

end Sys2Proof.Machine
end

