-- ==== Sys2Proof/Machine/Dispatch.lean ====
section
/-! DEFINITION. The meaning of every instruction: one arm per constructor. -/

namespace Sys2Proof.Machine

def exec (i : Instr) (s : State) : Host.Outcome State Fault Refusal :=
  match i with
  | .addN8 n => Sys2Proof.Machine.execAddN8 n s
  | .addR8 r => Sys2Proof.Machine.execAddR8 r s
  | .addInd => Sys2Proof.Machine.execAddInd s
  | .adcN8 n => Sys2Proof.Machine.execAdcN8 n s
  | .adcR8 r => Sys2Proof.Machine.execAdcR8 r s
  | .adcInd => Sys2Proof.Machine.execAdcInd s
  | .subN8 n => Sys2Proof.Machine.execSubN8 n s
  | .subR8 r => Sys2Proof.Machine.execSubR8 r s
  | .subInd => Sys2Proof.Machine.execSubInd s
  | .sbcN8 n => Sys2Proof.Machine.execSbcN8 n s
  | .sbcR8 r => Sys2Proof.Machine.execSbcR8 r s
  | .sbcInd => Sys2Proof.Machine.execSbcInd s
  | .andN8 n => Sys2Proof.Machine.execAndN8 n s
  | .andR8 r => Sys2Proof.Machine.execAndR8 r s
  | .andInd => Sys2Proof.Machine.execAndInd s
  | .xorN8 n => Sys2Proof.Machine.execXorN8 n s
  | .xorR8 r => Sys2Proof.Machine.execXorR8 r s
  | .xorInd => Sys2Proof.Machine.execXorInd s
  | .orN8 n => Sys2Proof.Machine.execOrN8 n s
  | .orR8 r => Sys2Proof.Machine.execOrR8 r s
  | .orInd => Sys2Proof.Machine.execOrInd s
  | .cpN8 n => Sys2Proof.Machine.execCpN8 n s
  | .cpR8 r => Sys2Proof.Machine.execCpR8 r s
  | .cpInd => Sys2Proof.Machine.execCpInd s
  | .addHl rr => Sys2Proof.Machine.execAddHl rr s
  | .incR8 r => Sys2Proof.Machine.execIncR8 r s
  | .decR8 r => Sys2Proof.Machine.execDecR8 r s
  | .cpl => Sys2Proof.Machine.execCpl s
  | .rrca => Sys2Proof.Machine.execRrca s
  | .rlcR8 r => Sys2Proof.Machine.execRlcR8 r s
  | .rrcR8 r => Sys2Proof.Machine.execRrcR8 r s
  | .slaR8 r => Sys2Proof.Machine.execSlaR8 r s
  | .sraR8 r => Sys2Proof.Machine.execSraR8 r s
  | .swapR8 r => Sys2Proof.Machine.execSwapR8 r s
  | .srlR8 r => Sys2Proof.Machine.execSrlR8 r s
  | .nop => Sys2Proof.Machine.execNop s
  | .ldR16N16 rr n => Sys2Proof.Machine.execLdR16N16 rr n s
  | .ldIndR8 r => Sys2Proof.Machine.execLdIndR8 r s
  | .ldR8R8 dst src => Sys2Proof.Machine.execLdR8R8 dst src s
  | .ldR8N8 dst n => Sys2Proof.Machine.execLdR8N8 dst n s
  | .ldR8Ind dst => Sys2Proof.Machine.execLdR8Ind dst s
  | .ldIndN8 n => Sys2Proof.Machine.execLdIndN8 n s
  | .ldHliA => Sys2Proof.Machine.execLdHliA s
  | .ldHldA => Sys2Proof.Machine.execLdHldA s
  | .ldAHli => Sys2Proof.Machine.execLdAHli s
  | .ldAHld => Sys2Proof.Machine.execLdAHld s
  | .ldSpN16 n => Sys2Proof.Machine.execLdSpN16 n s
  | .ldSpHl => Sys2Proof.Machine.execLdSpHl s
  | .push rr => Sys2Proof.Machine.execPush rr s
  | .pop rr => Sys2Proof.Machine.execPop rr s
  | .p x => Sys2Proof.Machine.execP x s
  | .print x => Sys2Proof.Machine.execPrint x s
  | .r1 addr => Sys2Proof.Machine.execR1 addr s
  | .r2 addr => Sys2Proof.Machine.execR2 addr s
  | .r4 addr => Sys2Proof.Machine.execR4 addr s
  | .x1 offset count => Sys2Proof.Machine.execX1 offset count s
  | .x2 offset count => Sys2Proof.Machine.execX2 offset count s
  | .x4 offset count => Sys2Proof.Machine.execX4 offset count s
  | .status => Sys2Proof.Machine.execStatus s

end Sys2Proof.Machine
end

