-- ==== Sys2Proof/Machine/Ports.lean ====
section
/-! DEFINITION. The register port and the memory port: the host's reads and writes between commands (spec R3, R18 to
R21, R41 to R46). A bad key or value is a validation error, answered as a RangeError, and changes nothing (R21, R203). -/

namespace Sys2Proof.Machine

/-- The 8-bit register of a key; none for any other key (spec R18). -/
def reg8Key (t : Text) : Option Reg8 :=
  if t = ['A'] then some .a
  else if t = ['F'] then some .f
  else if t = ['B'] then some .b
  else if t = ['C'] then some .c
  else if t = ['D'] then some .d
  else if t = ['E'] then some .e
  else if t = ['H'] then some .h
  else if t = ['L'] then some .l
  else none

/-- The pair of a key; none for any other key (spec R19). -/
def reg16Key (t : Text) : Option Reg16 :=
  if t = ['A', 'F'] then some .af
  else if t = ['B', 'C'] then some .bc
  else if t = ['D', 'E'] then some .de
  else if t = ['H', 'L'] then some .hl
  else if t = ['P', 'C'] then some .pc
  else if t = ['S', 'P'] then some .sp
  else none

/-- The flag of a key; none for any other key (spec R20). -/
def flagKey (t : Text) : Option Flag :=
  if t = ['Z'] then some .z
  else if t = ['N'] then some .n
  else if t = ['H'] then some .h
  else if t = ['C'] then some .c
  else none

/-- `get8` (spec R18). -/
def portGet8 (key : Text) (s : State) : Host.Outcome State Fault Refusal :=
  match reg8Key key with
  | none => raise .range s
  | some r => complete (.value (s.reg8 r).toNat) s

/-- `set8`: a value of -128..255, stored modulo 256 (spec R18). -/
def portSet8 (key : Text) (v : Int) (s : State) : Host.Outcome State Fault Refusal :=
  match reg8Key key with
  | none => raise .range s
  | some r => if -128 ≤ v ∧ v ≤ 255 then complete .none (s.setReg8 r (BitVec.ofInt 8 v)) else raise .range s

/-- `get16` (spec R19). -/
def portGet16 (key : Text) (s : State) : Host.Outcome State Fault Refusal :=
  match reg16Key key with
  | none => raise .range s
  | some rr => complete (.value (s.reg16 rr).toNat) s

/-- `set16`: a value of -32768..65535, stored modulo 65536 (spec R19). -/
def portSet16 (key : Text) (v : Int) (s : State) : Host.Outcome State Fault Refusal :=
  match reg16Key key with
  | none => raise .range s
  | some rr => if -32768 ≤ v ∧ v ≤ 65535 then complete .none (s.setReg16 rr (BitVec.ofInt 16 v)) else raise .range s

/-- `getflag` (spec R20). -/
def portGetFlag (key : Text) (s : State) : Host.Outcome State Fault Refusal :=
  match flagKey key with
  | none => raise .range s
  | some x => complete (.flag (s.flag x)) s

/-- `setflag`: the other bits of F are kept (spec R20). -/
def portSetFlag (key : Text) (b : Bool) (s : State) : Host.Outcome State Fault Refusal :=
  match flagKey key with
  | none => raise .range s
  | some x => complete .none (s.setReg8 .f (withFlag (s.reg8 .f) x b))

/-- `mget` (spec R41 to R44). -/
def portMget (w : Width) (addr : Int) (s : State) : Host.Outcome State Fault Refusal :=
  match memRead s.mem addr w with
  | none => raise .range s
  | some v => complete (.value v) s

/-- `mset`: an unsigned value of the width; nothing is masked (spec R41 to R45). -/
def portMset (w : Width) (addr v : Int) (s : State) : Host.Outcome State Fault Refusal :=
  if 0 ≤ v ∧ v < 256 ^ widthBytes w then
    match memWrite s.mem addr w v.toNat with
    | none => raise .range s
    | some m => complete .none (s.setMem m)
  else raise .range s

/-- One call on the register port or the memory port. -/
def portCall (call : PortCall) (s : State) : Host.Outcome State Fault Refusal :=
  match call with
  | .get8 key => portGet8 key s
  | .set8 key v => portSet8 key v s
  | .get16 key => portGet16 key s
  | .set16 key v => portSet16 key v s
  | .getFlag key => portGetFlag key s
  | .setFlag key b => portSetFlag key b s
  | .mget w addr => portMget w addr s
  | .mset w addr v => portMset w addr v s

end Sys2Proof.Machine
end

