-- ==== Sys2Proof/Machine/CommandPort.lean ====
section
/-! DEFINITION. Serving one request: a command, a line, or a port call; and the presentation of an opcode-table word
as a command. -/

namespace Sys2Proof.Machine

/-- One command: the error its text is answered with, or the meaning of the instruction it decodes to; a form graded I
or G is refused on an instance that does not adopt it (spec R75, R76, R209). -/
def runCommand (x : Command) (s : State) : Host.Outcome State Fault Refusal :=
  match decodeCommand s.params x with
  | .error e => raise e s
  | .ok i => if formAdopted s.params i then exec i s else .refused .formNotAdopted

/-- One line: split by the caller; a line with no mnemonic is a no-op (spec R61, R62). -/
def runLine (t : Text) (s : State) : Host.Outcome State Fault Refusal :=
  match splitLine t with
  | none => complete .none s
  | some x => runCommand x s

/-- One request (spec R3). -/
def serve (x : Request) (s : State) : Host.Outcome State Fault Refusal :=
  match x with
  | .command c => runCommand c s
  | .line t => runLine t s
  | .port call => portCall call s

/-- The next step: the oldest pending request is taken and served; with none pending the block waits, and nothing
changes (spec R4, R237; log entry 5). -/
def serveNext (s : State) : Host.Outcome State Fault Refusal :=
  match s.pending with
  | [] => .next s
  | x :: rest => serve x { s with pending := rest }

/-- The command that stands for an opcode-table word: the text of its instruction, or an unknown mnemonic for a word
that is none (spec R78). -/
def wordCommand (i : Option Instr) : Command :=
  match i with
  | some i => encodeText i
  | none => { mnemonic := ['?'], operands := [] }

/-- The parameters of an instance that has the instruction as a command: `EXT_OPS` for the six commands it gates,
`INFERRED_FORMS` for a form that is not settled, each otherwise as it is. -/
def paramsFor (i : Option Instr) (x : Params) : Params :=
  match i with
  | some i =>
    { extOps := x.extOps || i.mnemonic.isExt, inferredForms := x.inferredForms || !(i.grade == .settled) }
  | none => x

/-- A command presented before every pending request. -/
def present (x : Command) (s : State) : State := { s with pending := .command x :: s.pending }

/-- An opcode-table word presented as the next command, on an instance that has it (log entry 7). -/
def presentWord (nbits w : Nat) (s : State) : State :=
  let i := decodeTableWord nbits w
  present (wordCommand i) { s with params := paramsFor i s.params }

end Sys2Proof.Machine
end

