-- ==== Sys2Proof/Safety.lean ====
section
/-! DEFINITION. The terms the statements use: the invariant, what a command keeps, and how a command completes. -/

namespace Sys2Proof.Machine

/-- The invariant of the model's data: memory is in its canonical form. -/
def State.Inv (s : State) : Prop := s.mem.wf = true

/-- Every 8-bit register but the listed ones is kept. -/
def KeepsRegs (s t : State) (written : List Reg8) : Prop := ∀ r, r ∉ written → t.reg8 r = s.reg8 r

/-- The listed pairs are kept. -/
def KeepsPairs (s t : State) (kept : List Reg16) : Prop := ∀ rr, rr ∈ kept → t.reg16 rr = s.reg16 rr

/-- Every byte of memory is kept. -/
def KeepsMem (s t : State) : Prop := ∀ addr : Nat, t.mem.read addr = s.mem.read addr

/-- Every byte of memory outside `n` bytes from an address on is kept. -/
def KeepsMemOutside (s t : State) (base n : Nat) : Prop :=
  ∀ addr : Nat, addr < base ∨ base + n ≤ addr → t.mem.read addr = s.mem.read addr

/-- The instance's parameters and the host's pending requests are kept. -/
def KeepsHost (s t : State) : Prop := t.params = s.params ∧ t.pending = s.pending

/-- Registers, memory, parameters and pending requests are all kept: only the answer may differ. -/
def SameBut (s t : State) : Prop := t.regs = s.regs ∧ t.mem = s.mem ∧ KeepsHost s t

/-- The instruction runs to a next state and answers success with this output. -/
def Completes (i : Instr) (s t : State) (out : Output) : Prop :=
  exec i s = .next t ∧ t.answer = some (.success out)

/-- The instruction is answered with this error and changes nothing else. -/
def Errs (i : Instr) (s : State) (e : CmdError) : Prop :=
  ∃ t, exec i s = .next t ∧ t.answer = some (.error e) ∧ SameBut s t

/-- The four flags, with the low nibble of F zero. -/
def HasFlags (t : State) (z n h c : Bool) : Prop :=
  t.flag .z = z ∧ t.flag .n = n ∧ t.flag .h = h ∧ t.flag .c = c ∧ (t.reg8 .f).toNat % 16 = 0

/-- A command completes with a result in A and the flags in F, and keeps everything else. -/
def AccEffect (i : Instr) (s : State) (result : Byte) (z n h c : Bool) : Prop :=
  ∃ t, Completes i s t .none ∧ t.reg8 .a = result ∧ HasFlags t z n h c ∧
    KeepsRegs s t [.a, .f] ∧ KeepsPairs s t [.pc, .sp] ∧ KeepsMem s t ∧ KeepsHost s t

/-- A command completes with a result in an operand register and the flags in F, and keeps everything else. -/
def RegEffect (i : Instr) (s : State) (r : R8) (result : Byte) (z n h c : Bool) : Prop :=
  ∃ t, Completes i s t .none ∧ t.reg8 (r8Reg r) = result ∧ HasFlags t z n h c ∧
    KeepsRegs s t [r8Reg r, .f] ∧ KeepsPairs s t [.pc, .sp] ∧ KeepsMem s t ∧ KeepsHost s t

/-- The byte at HL. -/
def atHl (s : State) : Byte := s.mem.read (s.reg16 .hl).toNat

/-- An effect holds for the three forms of an accumulator command, each with its own second operand. -/
def AccForms (onN8 : Byte → Instr) (onR8 : R8 → Instr) (onInd : Instr) (s : State)
    (effect : Instr → Byte → Prop) : Prop :=
  (∀ n, effect (onN8 n) n) ∧ (∀ r, effect (onR8 r) (s.reg8 (r8Reg r))) ∧ effect onInd (atHl s)

/-- The bytes of the three forms of an accumulator command. -/
def AccBytes (onN8 : Byte → Instr) (onR8 : R8 → Instr) (onInd : Instr) (base imm : Nat) : Prop :=
  (∀ n, encode (onN8 n) = some [BitVec.ofNat 8 imm, n]) ∧
    (∀ r, encode (onR8 r) = some [BitVec.ofNat 8 (base + r8Code r)]) ∧
    encode onInd = some [BitVec.ofNat 8 (base + 6)]

/-- A load completes with a value in an operand register, and keeps everything else, F too. -/
def LoadEffect (i : Instr) (s : State) (dst : R8) (v : Byte) : Prop :=
  ∃ t, Completes i s t .none ∧ t.reg8 (r8Reg dst) = v ∧
    KeepsRegs s t [r8Reg dst] ∧ KeepsPairs s t [.pc, .sp] ∧ KeepsMem s t ∧ KeepsHost s t

/-- A load completes with a word in SP, and keeps everything else. -/
def LoadSpEffect (i : Instr) (s : State) (v : Word) : Prop :=
  ∃ t, Completes i s t .none ∧ t.reg16 .sp = v ∧
    KeepsRegs s t [] ∧ KeepsPairs s t [.pc] ∧ KeepsMem s t ∧ KeepsHost s t

/-- A command completes with a byte stored at HL and the given HL after it, and keeps everything else. -/
def StoreEffect (i : Instr) (s : State) (v : Byte) (hl : Word) (written : List Reg8) : Prop :=
  ∃ t, Completes i s t .none ∧ t.mem.read (hlAddr s).toNat = v ∧ KeepsMemOutside s t (hlAddr s).toNat 1 ∧
    t.Inv ∧ t.reg16 .hl = hl ∧ KeepsRegs s t written ∧ KeepsPairs s t [.pc, .sp] ∧ KeepsHost s t

/-- The first-named register of an operand pair: its high byte. -/
def r16Hi : R16 → Reg8
  | .bc => .b
  | .de => .d
  | .hl => .h

/-- The second-named register of an operand pair: its low byte. -/
def r16Lo : R16 → Reg8
  | .bc => .c
  | .de => .e
  | .hl => .l

/-- The little-endian value at an address, byte by byte as spec R41 to R43 write it. -/
def leValue (m : Memory) (addr : Nat) : Width → Nat
  | .byte => (m.read addr).toNat
  | .word => (m.read addr).toNat + 256 * (m.read (addr + 1)).toNat
  | .dword => (m.read addr).toNat + 2 ^ 8 * (m.read (addr + 1)).toNat + 2 ^ 16 * (m.read (addr + 2)).toNat +
      2 ^ 24 * (m.read (addr + 3)).toNat

/-- The `n` hexadecimal digits of a value, digit by digit, most significant first. -/
def hexMarks (n v : Nat) : List Glyph := (List.range n).map fun k => .hex (BitVec.ofNat 4 (v / 16 ^ (n - 1 - k)))

/-- A dump shows `count` items of a width from an offset on: 16 to a row, each row under its starting address. -/
def ShowsItems (m : Memory) (w : Width) (offset count : Nat) (rows : List DumpRow) : Prop :=
  rows.length = (count + 15) / 16 ∧
  (∀ k row, rows[k]? = some row →
    row.head = .ch '$' :: hexMarks 4 (offset + 16 * k * widthBytes w) ++ [.ch ':'] ∧
    row.items.length = min 16 (count - 16 * k)) ∧
  ∀ i, i < count → ∃ row, rows[i / 16]? = some row ∧
    row.items[i % 16]? = some (hexMarks (2 * widthBytes w) (leValue m (offset + i * widthBytes w) w))

/-- The operand counts a mnemonic accepts (spec R73). -/
def acceptedCounts : Mnemonic → List Nat
  | .adc | .add | .cp | .sbc | .sub | .xor | .and | .or => [1, 2]
  | .dec | .inc | .srl | .swap | .pop | .push | .print | .p | .r1 | .r2 | .r4 => [1]
  | .rlc | .rrc | .sla | .sra => [1]
  | .ld | .x1 | .x2 | .x4 => [2]
  | .nop | .cpl | .rrca | .status => [0]

/-- The symbolic operand texts in upper case, with their kinds and values, as the table of spec R67 has them. -/
def symbolForms : List (Text × List Kind × Symbol) :=
  [("A".toList, [.accA, .r8], .r8 .a), ("C".toList, [.r8, .cc], .r8 .c), ("B".toList, [.r8], .r8 .b),
   ("D".toList, [.r8], .r8 .d), ("E".toList, [.r8], .r8 .e), ("H".toList, [.r8], .r8 .h), ("L".toList, [.r8], .r8 .l)]
  ++ [("HL".toList, [.pairHL, .r16], .r16 .hl), ("BC".toList, [.r16], .r16 .bc), ("DE".toList, [.r16], .r16 .de),
   ("SP".toList, [.regSP], .sp), ("[HL]".toList, [.atHL], .atHL), ("[HLI]".toList, [.atHLI], .atHLI),
   ("[HLD]".toList, [.atHLD], .atHLD)]

/-- An operand text the classifier gives a kind. -/
def Classified (x : Text) : Prop := ∃ ks v, classify x = .known ks v

/-- A command with this mnemonic and one classified operand without kind `r8` is a KindMismatchError. -/
def TakesOnlyR8 (m : String) : Prop :=
  ∀ (p : Params) (x : Text) (ks : List Kind) (v : TokenValue), classify x = .known ks v → Kind.r8 ∉ ks →
    decodeCommand p ⟨m.toList, [x]⟩ = .error .kindMismatch

/-- What a form of spec R76 has in one operand place, with the value the instruction takes from there. -/
inductive Operand where
  /-- A place of a kind that only one operand text has: `A`, `HL`, `SP`, `[HL]`, `[HLI]` or `[HLD]`. -/
  | fixed (k : Kind)
  /-- `r8`. -/
  | reg8 (r : R8)
  /-- `r16`. -/
  | reg16 (rr : R16)
  /-- `n8`, reduced modulo 256. -/
  | imm8 (n : Byte)
  /-- `n16`, reduced modulo 65536. -/
  | imm16 (n : Word)
  /-- `n16` as an address or a count, which is not reduced. -/
  | whole (v : Int)
  /-- An operand of any classified kind. -/
  | shown (x : PrintArg)
deriving DecidableEq, Repr

/-- The value of a token that is shown so (spec R190). -/
def shownValue : PrintArg → TokenValue
  | .lit v => .int v
  | .reg8 r => .sym (.r8 r)
  | .reg16 rr => .sym (.r16 rr)
  | .sp => .sym .sp
  | .atHL => .sym .atHL
  | .atHLI => .sym .atHLI
  | .atHLD => .sym .atHLD

/-- The token carries the place's kind (spec R9, R76), and its value is the place's, reduced as spec R77 says. -/
def Operand.Fits : Operand → Token → Prop
  | .fixed k, t => ∃ ks v, t = .known ks v ∧ k ∈ ks
  | .reg8 r, t => ∃ ks, t = .known ks (.sym (.r8 r)) ∧ Kind.r8 ∈ ks
  | .reg16 rr, t => ∃ ks, t = .known ks (.sym (.r16 rr)) ∧ Kind.r16 ∈ ks
  | .imm8 n, t => ∃ ks v, t = .known ks (.int v) ∧ Kind.n8 ∈ ks ∧ (n.toNat : Int) = v % 256
  | .imm16 n, t => ∃ ks v, t = .known ks (.int v) ∧ Kind.n16 ∈ ks ∧ (n.toNat : Int) = v % 65536
  | .whole v, t => ∃ ks, t = .known ks (.int v) ∧ Kind.n16 ∈ ks
  | .shown x, t => ∃ ks, t = .known ks (shownValue x)

/-- The operand places of an instruction's form: the rows of spec R76. -/
def formOperands : Instr → List Operand
  | .addN8 n | .adcN8 n | .subN8 n | .sbcN8 n | .andN8 n | .xorN8 n | .orN8 n | .cpN8 n => [.fixed .accA, .imm8 n]
  | .addR8 r | .adcR8 r | .subR8 r | .sbcR8 r | .andR8 r | .xorR8 r | .orR8 r | .cpR8 r => [.fixed .accA, .reg8 r]
  | .addInd | .adcInd | .subInd | .sbcInd | .andInd | .xorInd | .orInd | .cpInd => [.fixed .accA, .fixed .atHL]
  | .addHl rr => [.fixed .pairHL, .reg16 rr]
  | .incR8 r | .decR8 r | .srlR8 r | .swapR8 r | .rlcR8 r | .rrcR8 r | .slaR8 r | .sraR8 r => [.reg8 r]
  | .cpl | .rrca | .nop | .status => []
  | .ldR16N16 rr n => [.reg16 rr, .imm16 n]
  | .ldIndR8 r => [.fixed .atHL, .reg8 r]
  | .ldR8R8 dst src => [.reg8 dst, .reg8 src]
  | .ldR8N8 dst n => [.reg8 dst, .imm8 n]
  | .ldR8Ind dst => [.reg8 dst, .fixed .atHL]
  | .ldIndN8 n => [.fixed .atHL, .imm8 n]
  | .ldHliA => [.fixed .atHLI, .fixed .accA]
  | .ldHldA => [.fixed .atHLD, .fixed .accA]
  | .ldAHli => [.fixed .accA, .fixed .atHLI]
  | .ldAHld => [.fixed .accA, .fixed .atHLD]
  | .ldSpN16 n => [.fixed .regSP, .imm16 n]
  | .ldSpHl => [.fixed .regSP, .fixed .pairHL]
  | .push rr | .pop rr => [.reg16 rr]
  | .p x | .print x => [.shown x]
  | .r1 v | .r2 v | .r4 v => [.whole v]
  | .x1 o n | .x2 o n | .x4 o n => [.whole o, .whole n]

/-- A command's operands, with the accumulator default (spec R74), fit the form of an instruction of its mnemonic. -/
def FitsForm (params : Params) (c : Command) (i : Instr) : Prop :=
  dispatchKey params c.mnemonic = some i.mnemonic ∧
    List.Forall₂ Operand.Fits (formOperands i) ((normalise i.mnemonic c.operands).map classify)

/-- A request that is a command or a line, not a port call. -/
def isCommandRequest : Request → Bool
  | .command _ => true
  | .line _ => true
  | .port _ => false

end Sys2Proof.Machine
end

