-- ==== Sys2Proof/Certificates/Slice0/Obligations.lean ====
section
/-! DEFINITION. The statements about the model, each from a rule of the spec. -/

open Sys2Proof Sys2Proof.Machine

/-! ## Arithmetic -/

/-- R110: `add A, src2` in its three forms: bytes, the literal -1, result and flags, and what is kept. That `r8` and
`[HL]` are taken is the spec's decision D8, the reduction of a negative literal its decision D6 (log entries 14, 13). -/
def Obligations.AddPutsSumInA : Prop :=
  AccBytes .addN8 .addR8 .addInd 0x80 0xC6 ∧
  (∀ p : Params, decodeCommand p ⟨"add".toList, ["A".toList, "-1".toList]⟩ = .ok (.addN8 0xFF)) ∧
  ∀ s : State, AccForms .addN8 .addR8 .addInd s fun i x =>
    AccEffect i s (s.reg8 .a + x) (decide (s.reg8 .a + x = 0)) false
      (decide (15 < (s.reg8 .a).toNat % 16 + x.toNat % 16)) (decide (256 ≤ (s.reg8 .a).toNat + x.toNat))

/-- R111 (with R101): `adc A, src2`: the carry joins the operand before the half-carry is formed (decision D28). The
forms are inferred (decision D8; log entry 14). -/
def Obligations.AdcPutsSumWithCarryInA : Prop :=
  AccBytes .adcN8 .adcR8 .adcInd 0x88 0xCE ∧
  ∀ s : State, AccForms .adcN8 .adcR8 .adcInd s fun i x =>
    let c := (s.flag .c).toNat
    let result := s.reg8 .a + x + BitVec.ofNat 8 c
    AccEffect i s result (decide (result = 0)) false
      (decide (15 < (s.reg8 .a).toNat % 16 + (x.toNat + c) % 16))
      (decide (256 ≤ (s.reg8 .a).toNat + x.toNat + c))

/-- R112 (with R102): `sub A, src2`. The forms are inferred (decision D8; log entry 14). -/
def Obligations.SubPutsDifferenceInA : Prop :=
  AccBytes .subN8 .subR8 .subInd 0x90 0xD6 ∧
  ∀ s : State, AccForms .subN8 .subR8 .subInd s fun i x =>
    AccEffect i s (s.reg8 .a - x) (decide (s.reg8 .a = x)) true
      (decide ((s.reg8 .a).toNat % 16 < x.toNat % 16)) (decide ((s.reg8 .a).toNat < x.toNat))

/-- R113 (with R103): `sbc A, src2`: the borrow joins the operand before the half-carry is formed (decision D28). The
forms are inferred (decision D8; log entry 14). -/
def Obligations.SbcPutsDifferenceWithCarryInA : Prop :=
  AccBytes .sbcN8 .sbcR8 .sbcInd 0x98 0xDE ∧
  ∀ s : State, AccForms .sbcN8 .sbcR8 .sbcInd s fun i x =>
    let c := (s.flag .c).toNat
    let result := s.reg8 .a - x - BitVec.ofNat 8 c
    AccEffect i s result (decide (result = 0)) true
      (decide ((s.reg8 .a).toNat % 16 < (x.toNat + c) % 16)) (decide ((s.reg8 .a).toNat < x.toNat + c))

/-- R114: `cp A, src2` writes F as `sub` does and keeps every other register, A among them. The rule is general
knowledge (decision D9; log entry 15). -/
def Obligations.CpWritesOnlyFlags : Prop :=
  AccBytes .cpN8 .cpR8 .cpInd 0xB8 0xFE ∧
  ∀ s : State, AccForms .cpN8 .cpR8 .cpInd s fun i x =>
    ∃ t, Completes i s t .none ∧
      HasFlags t (decide (s.reg8 .a = x)) true (decide ((s.reg8 .a).toNat % 16 < x.toNat % 16))
        (decide ((s.reg8 .a).toNat < x.toNat)) ∧
      KeepsRegs s t [.f] ∧ KeepsPairs s t [.pc, .sp] ∧ KeepsMem s t ∧ KeepsHost s t

/-- R115 (with R104): `add HL, r16`: Z is kept, N is 0, H and C are the carries out of bits 11 and 15. N is the spec's
decision D5, the KindMismatchError of `add HL, SP` its decision D16 (log entries 12, 17). -/
def Obligations.AddHlKeepsZ : Prop :=
  encode (.addHl .bc) = some [0x09] ∧ encode (.addHl .de) = some [0x19] ∧ encode (.addHl .hl) = some [0x29] ∧
  (∀ p : Params, decodeCommand p ⟨"add".toList, ["HL".toList, "SP".toList]⟩ = .error .kindMismatch) ∧
  (∀ p : Params, decodeCommand p ⟨"add".toList, ["HL".toList]⟩ = .error .kindMismatch) ∧
  ∀ (rr : R16) (s : State), ∃ t, Completes (.addHl rr) s t .none ∧
    t.reg16 .hl = s.reg16 .hl + s.reg16 (r16Reg rr) ∧
    HasFlags t (s.flag .z) false
      (decide (4095 < (s.reg16 .hl).toNat % 4096 + (s.reg16 (r16Reg rr)).toNat % 4096))
      (decide (65536 ≤ (s.reg16 .hl).toNat + (s.reg16 (r16Reg rr)).toNat)) ∧
    KeepsRegs s t [.h, .l, .f] ∧ KeepsPairs s t [.pc, .sp] ∧ KeepsMem s t ∧ KeepsHost s t

/-- R116 (with R105): `inc r8`: C is kept; no operand without kind `r8` is taken. The half-carry is the spec's decision
D4, the operand kinds its decision D11 (log entries 11, 17). -/
def Obligations.IncKeepsCarry : Prop :=
  (∀ r, encode (.incR8 r) = some [BitVec.ofNat 8 (0x04 + 8 * r8Code r)]) ∧
  TakesOnlyR8 "inc" ∧
  ∀ (r : R8) (s : State), RegEffect (.incR8 r) s r (s.reg8 (r8Reg r) + 1) (decide (s.reg8 (r8Reg r) = 0xFF)) false
    (decide ((s.reg8 (r8Reg r)).toNat % 16 = 15)) (s.flag .c)

/-- R117 (with R106): `dec r8`: C is kept; no operand without kind `r8` is taken (decision D11; log entry 17). -/
def Obligations.DecKeepsCarry : Prop :=
  (∀ r, encode (.decR8 r) = some [BitVec.ofNat 8 (0x05 + 8 * r8Code r)]) ∧
  TakesOnlyR8 "dec" ∧
  ∀ (r : R8) (s : State), RegEffect (.decR8 r) s r (s.reg8 (r8Reg r) - 1) (decide (s.reg8 (r8Reg r) = 1)) true
    (decide ((s.reg8 (r8Reg r)).toNat % 16 = 0)) (s.flag .c)

/-! ## Logic -/

/-- R131 (with R130): `xor A, src2`. The forms are inferred (decision D8; log entry 14). -/
def Obligations.XorClearsNHC : Prop :=
  AccBytes .xorN8 .xorR8 .xorInd 0xA8 0xEE ∧
  ∀ s : State, AccForms .xorN8 .xorR8 .xorInd s fun i x =>
    AccEffect i s (s.reg8 .a ^^^ x) (decide (s.reg8 .a = x)) false false false

/-- R134, R136 (with R133, R135): `and A, src2` sets H, `or A, src2` clears N, H and C; without `EXT_OPS` there are no
such mnemonics. Both rules are general knowledge (decision D10; log entry 2). -/
def Obligations.AndOrWriteTheirFlags : Prop :=
  AccBytes .andN8 .andR8 .andInd 0xA0 0xE6 ∧ AccBytes .orN8 .orR8 .orInd 0xB0 0xF6 ∧
  (∀ (p : Params) (ops : List Text), p.extOps = false → ∀ m ∈ ["and", "or"],
    decodeCommand p ⟨m.toList, ops⟩ = .error .unknownMnemonic) ∧
  ∀ s : State,
    (AccForms .andN8 .andR8 .andInd s fun i x =>
      AccEffect i s (s.reg8 .a &&& x) (decide (s.reg8 .a &&& x = 0)) false true false) ∧
    AccForms .orN8 .orR8 .orInd s fun i x =>
      AccEffect i s (s.reg8 .a ||| x) (decide (s.reg8 .a = 0 ∧ x = 0)) false false false

/-- R132: `cpl` complements A, sets N and H, and keeps every other bit of F. -/
def Obligations.CplMergesFlags : Prop :=
  encode .cpl = some [0x2F] ∧
  (∀ (p : Params) (x : Text) (xs : List Text), decodeCommand p ⟨"cpl".toList, x :: xs⟩ = .error .arity) ∧
  ∀ s : State, ∃ t, Completes .cpl s t .none ∧ (t.reg8 .a).toNat = 255 - (s.reg8 .a).toNat ∧
    t.flag .n = true ∧ t.flag .h = true ∧ t.flag .z = s.flag .z ∧ t.flag .c = s.flag .c ∧
    (t.reg8 .f).toNat % 16 = (s.reg8 .f).toNat % 16 ∧
    KeepsRegs s t [.a, .f] ∧ KeepsPairs s t [.pc, .sp] ∧ KeepsMem s t ∧ KeepsHost s t

/-! ## Rotate and shift -/

/-- R141 (with R140): `rrca` clears Z even on a zero result. -/
def Obligations.RrcaRotatesRight : Prop :=
  encode .rrca = some [0x0F] ∧
  (∀ (p : Params) (x : Text) (xs : List Text), decodeCommand p ⟨"rrca".toList, x :: xs⟩ = .error .arity) ∧
  ∀ s : State, AccEffect .rrca s (BitVec.ofNat 8 ((s.reg8 .a).toNat / 2 + (s.reg8 .a).toNat % 2 * 128))
    false false false (decide ((s.reg8 .a).toNat % 2 = 1))

/-- R143 (with R142): `srl r8`; no operand without kind `r8` is taken, `[HL]` and literals among them. The operand kind
is inferred (decision D12; log entry 17). -/
def Obligations.SrlShiftsRight : Prop :=
  (∀ r, encode (.srlR8 r) = some [0xCB, BitVec.ofNat 8 (0x38 + r8Code r)]) ∧
  TakesOnlyR8 "srl" ∧
  ∀ (r : R8) (s : State), RegEffect (.srlR8 r) s r (BitVec.ofNat 8 ((s.reg8 (r8Reg r)).toNat / 2))
    (decide ((s.reg8 (r8Reg r)).toNat < 2)) false false (decide ((s.reg8 (r8Reg r)).toNat % 2 = 1))

/-- R145 (with R144): `swap r8`; no operand without kind `r8` is taken. The operand kind is inferred (decision D12; log
entry 17). -/
def Obligations.SwapExchangesNibbles : Prop :=
  (∀ r, encode (.swapR8 r) = some [0xCB, BitVec.ofNat 8 (0x30 + r8Code r)]) ∧
  TakesOnlyR8 "swap" ∧
  ∀ (r : R8) (s : State), RegEffect (.swapR8 r) s r
    (BitVec.ofNat 8 ((s.reg8 (r8Reg r)).toNat % 16 * 16 + (s.reg8 (r8Reg r)).toNat / 16))
    (decide (s.reg8 (r8Reg r) = 0)) false false false

/-- R150 (with R146 to R149): `rlc`, `rrc`, `sla`, `sra`, and without `EXT_OPS` no such mnemonics. The rule is general
knowledge (decision D10; log entry 2). -/
def Obligations.ExtRotatesAndShifts : Prop :=
  (∀ r, encode (.rlcR8 r) = some [0xCB, BitVec.ofNat 8 (0x00 + r8Code r)] ∧
    encode (.rrcR8 r) = some [0xCB, BitVec.ofNat 8 (0x08 + r8Code r)] ∧
    encode (.slaR8 r) = some [0xCB, BitVec.ofNat 8 (0x20 + r8Code r)] ∧
    encode (.sraR8 r) = some [0xCB, BitVec.ofNat 8 (0x28 + r8Code r)]) ∧
  (∀ (p : Params) (ops : List Text), p.extOps = false → ∀ m ∈ ["rlc", "rrc", "sla", "sra"],
    decodeCommand p ⟨m.toList, ops⟩ = .error .unknownMnemonic) ∧
  ∀ (r : R8) (s : State),
    let x := (s.reg8 (r8Reg r)).toNat
    RegEffect (.rlcR8 r) s r (BitVec.ofNat 8 (x * 2 % 256 + x / 128)) (decide (x = 0)) false false
      (decide (128 ≤ x)) ∧
    RegEffect (.rrcR8 r) s r (BitVec.ofNat 8 (x / 2 + x % 2 * 128)) (decide (x = 0)) false false
      (decide (x % 2 = 1)) ∧
    RegEffect (.slaR8 r) s r (BitVec.ofNat 8 (x * 2 % 256)) (decide (x % 128 = 0)) false false
      (decide (128 ≤ x)) ∧
    RegEffect (.sraR8 r) s r (BitVec.ofNat 8 (x / 2 + x / 128 * 128)) (decide (x < 2)) false false
      (decide (x % 2 = 1))

/-! ## Loads, stores and the stack -/

/-- R160: `nop` changes nothing, PC among it, and a line without a mnemonic has the same effect. -/
def Obligations.NopChangesNothing : Prop :=
  encode .nop = some [0x00] ∧
  (∀ (p : Params) (x : Text) (xs : List Text), decodeCommand p ⟨"nop".toList, x :: xs⟩ = .error .arity) ∧
  ∀ s : State, (∃ t, Completes .nop s t .none ∧ SameBut s t) ∧
    ∀ t : Text, splitLine t = none → runLine t s = exec .nop s

/-- R163, R164, R165: the loads of an 8-bit register. `[HL]` is read at the HL of before, for H and L too. The forms are
inferred (decision D13; log entry 16). -/
def Obligations.LoadsIntoAByteRegister : Prop :=
  (∀ dst src : R8, encode (.ldR8R8 dst src) = some [BitVec.ofNat 8 (0x40 + 8 * r8Code dst + r8Code src)]) ∧
  (∀ (dst : R8) (n : Byte), encode (.ldR8N8 dst n) = some [BitVec.ofNat 8 (0x06 + 8 * r8Code dst), n]) ∧
  (∀ dst : R8, encode (.ldR8Ind dst) = some [BitVec.ofNat 8 (0x46 + 8 * r8Code dst)]) ∧
  (∀ p : Params, ∀ x ∈ ["-1", "255"],
    decodeCommand p ⟨"ld".toList, ["A".toList, x.toList]⟩ = .ok (.ldR8N8 .a 0xFF)) ∧
  ∀ (s : State) (dst : R8), (∀ src, LoadEffect (.ldR8R8 dst src) s dst (s.reg8 (r8Reg src))) ∧
    (∀ n, LoadEffect (.ldR8N8 dst n) s dst n) ∧ LoadEffect (.ldR8Ind dst) s dst (atHl s)

/-- R161: `ld r16, n16`: the high byte goes to the first-named register, the low byte to the second. -/
def Obligations.LoadsAWordIntoAPair : Prop :=
  (∀ (rr : R16) (n : Word), encode (.ldR16N16 rr n) =
    some [BitVec.ofNat 8 (0x01 + 16 * r16Code rr), BitVec.ofNat 8 n.toNat, BitVec.ofNat 8 (n.toNat / 256)]) ∧
  (∀ p : Params, decodeCommand p ⟨"ld".toList, ["BC".toList, "-1".toList]⟩ = .ok (.ldR16N16 .bc 0xFFFF)) ∧
  ∀ (rr : R16) (n : Word) (s : State), ∃ t, Completes (.ldR16N16 rr n) s t .none ∧
    (t.reg8 (r16Hi rr)).toNat = n.toNat / 256 ∧ (t.reg8 (r16Lo rr)).toNat = n.toNat % 256 ∧
    KeepsRegs s t [r16Hi rr, r16Lo rr] ∧ KeepsPairs s t [.pc, .sp] ∧ KeepsMem s t ∧ KeepsHost s t

/-- R171, R172: the loads of SP. Both rules are general knowledge (decision D13; log entry
16). -/
def Obligations.LoadsIntoSp : Prop :=
  (∀ n, encode (.ldSpN16 n) = some [0x31, BitVec.ofNat 8 n.toNat, BitVec.ofNat 8 (n.toNat / 256)]) ∧
  encode .ldSpHl = some [0xF9] ∧
  ∀ s : State, (∀ n, LoadSpEffect (.ldSpN16 n) s n) ∧ LoadSpEffect .ldSpHl s (s.reg16 .hl)

/-- R162, R166: the stores at HL keep HL, and `ld [HL], H` and `ld [HL], L` store a byte of the address. `ld [HL], n8`
is inferred (decision D13), its reduction of a negative literal is decision D6 (log entries 16, 13). -/
def Obligations.StoresOneByteAtHl : Prop :=
  (∀ r, encode (.ldIndR8 r) = some [BitVec.ofNat 8 (0x70 + r8Code r)]) ∧
  (∀ n, encode (.ldIndN8 n) = some [0x36, n]) ∧
  (∀ p : Params, decodeCommand p ⟨"ld".toList, ["[HL]".toList, "-1".toList]⟩ = .ok (.ldIndN8 0xFF)) ∧
  ∀ s : State, s.Inv → (∀ r, StoreEffect (.ldIndR8 r) s (s.reg8 (r8Reg r)) (s.reg16 .hl) []) ∧
    ∀ n, StoreEffect (.ldIndN8 n) s n (s.reg16 .hl) []

/-- R167, R168 (with R176): `ld [HLI], A` and `ld [HLD], A` store at the old HL and step it modulo 65536 (decision
D14; log entry 18). The forms are inferred (decision D13; log entry 16). -/
def Obligations.StoresAAndStepsHl : Prop :=
  encode .ldHliA = some [0x22] ∧ encode .ldHldA = some [0x32] ∧
  ∀ s : State, s.Inv → StoreEffect .ldHliA s (s.reg8 .a) (s.reg16 .hl + 1) [.h, .l] ∧
    StoreEffect .ldHldA s (s.reg8 .a) (s.reg16 .hl - 1) [.h, .l]

/-- R169, R170 (with R176): `ld A, [HLI]` and `ld A, [HLD]` load from the old HL and step it modulo 65536 (decision
D14; log entry 18). The forms are inferred (decision D13; log entry 16). -/
def Obligations.LoadsAAndStepsHl : Prop :=
  encode .ldAHli = some [0x2A] ∧ encode .ldAHld = some [0x3A] ∧
  ∀ s : State, ∀ step ∈ [(Instr.ldAHli, s.reg16 .hl + 1), (Instr.ldAHld, s.reg16 .hl - 1)],
    ∃ t, Completes step.1 s t .none ∧ t.reg8 .a = atHl s ∧ t.reg16 .hl = step.2 ∧
      KeepsRegs s t [.a, .h, .l] ∧ KeepsPairs s t [.pc, .sp] ∧ KeepsMem s t ∧ KeepsHost s t

/-- R174: `push r16` stores the pair low byte first at SP - 2; with SP at 1 it is a RangeError that changes nothing.
The rule is general knowledge (decision D15; log entry 19). -/
def Obligations.PushStoresBelowSp : Prop :=
  (∀ rr, encode (.push rr) = some [BitVec.ofNat 8 (0xC5 + 16 * r16Code rr)]) ∧
  ∀ (rr : R16) (s : State), s.Inv →
    (s.reg16 .sp = 1 → Errs (.push rr) s .range) ∧
    (s.reg16 .sp ≠ 1 → ∃ t, Completes (.push rr) s t .none ∧
      pushAddr s = s.reg16 .sp - 2 ∧ t.reg16 .sp = pushAddr s ∧
      t.mem.read (pushAddr s).toNat = s.reg8 (r16Lo rr) ∧
      t.mem.read ((pushAddr s).toNat + 1) = s.reg8 (r16Hi rr) ∧
      KeepsMemOutside s t (pushAddr s).toNat 2 ∧ t.Inv ∧
      KeepsRegs s t [] ∧ KeepsPairs s t [.pc] ∧ KeepsHost s t)

/-- R175: `pop r16` loads the pair from SP, low byte first; with SP at 0xFFFF it is a RangeError that changes nothing.
The rule is general knowledge (decision D15; log entry 19). -/
def Obligations.PopLoadsFromSp : Prop :=
  (∀ rr, encode (.pop rr) = some [BitVec.ofNat 8 (0xC1 + 16 * r16Code rr)]) ∧
  ∀ (rr : R16) (s : State),
    (s.reg16 .sp = 0xFFFF → Errs (.pop rr) s .range) ∧
    (s.reg16 .sp ≠ 0xFFFF → ∃ t, Completes (.pop rr) s t .none ∧
      t.reg8 (r16Lo rr) = s.mem.read (s.reg16 .sp).toNat ∧
      t.reg8 (r16Hi rr) = s.mem.read ((s.reg16 .sp).toNat + 1) ∧
      t.reg16 .sp = s.reg16 .sp + 2 ∧
      KeepsRegs s t [r16Hi rr, r16Lo rr] ∧ KeepsPairs s t [.pc] ∧ KeepsMem s t ∧ KeepsHost s t)

/-- A `pop` after a `push` moves the pushed pair to the popped one and brings SP back (from R174 and R175, general
knowledge, decision D15; log entry 19). -/
def Obligations.PopAfterPushMovesThePair : Prop :=
  ∀ (rr qq : R16) (s : State), s.Inv → s.reg16 .sp ≠ 1 →
    ∃ t u, exec (.push rr) s = .next t ∧ exec (.pop qq) t = .next u ∧
      u.reg16 (r16Reg qq) = s.reg16 (r16Reg rr) ∧ u.reg16 .sp = s.reg16 .sp

/-! ## Examine commands -/

/-- R190 (with R72): `p` and `print` show an operand's value and change nothing; `[HLI]` and `[HLD]` do not step
HL. Which operands are taken is the spec's decision D21, the form of the output is left open (log entries 20, 10). -/
def Obligations.PrintShowsTheOperand : Prop :=
  ∀ s : State, ∀ mk : PrintArg → Instr, mk = Instr.p ∨ mk = Instr.print →
    (∀ v, exec (mk (.lit v)) s = .next (s.answered (.success (.printed v)))) ∧
    (∀ r, exec (mk (.reg8 r)) s = .next (s.answered (.success (.printed (s.reg8 (r8Reg r)).toNat)))) ∧
    (∀ rr, exec (mk (.reg16 rr)) s = .next (s.answered (.success (.printed (s.reg16 (r16Reg rr)).toNat)))) ∧
    exec (mk .sp) s = .next (s.answered (.success (.printed (s.reg16 .sp).toNat))) ∧
    ∀ x ∈ [PrintArg.atHL, PrintArg.atHLI, PrintArg.atHLD],
      exec (mk x) s = .next (s.answered (.success (.printed (atHl s).toNat)))

/-- R191: `r/N a` shows `$` and the 2N digits of the little-endian value at an address of 0..0x10000-N, and is a
RangeError at any other address; it changes nothing. The operand kind is the spec's decision D21 (log entry 20). -/
def Obligations.ExamineShowsMemory : Prop :=
  ∀ (s : State) (a : Int), ∀ form ∈ [(Width.byte, Instr.r1, (1 : Int)), (Width.word, Instr.r2, 2),
      (Width.dword, Instr.r4, 4)],
    (0 ≤ a → a ≤ 0x10000 - form.2.2 →
      exec (form.2.1 a) s = .next (s.answered (.success (.text
        (.ch '$' :: hexMarks (2 * form.2.2.toNat) (leValue s.mem a.toNat form.1)))))) ∧
    (a < 0 ∨ 0x10000 - form.2.2 < a → Errs (form.2.1 a) s .range)

/-- R192: `x/N o, c` shows c items of width N from o on, 16 to a row under the row's address, and is a RangeError when
an operand is negative or the dump would pass 0x10000; it changes nothing. The operand kinds and their order are the
spec's decision D21 (log entry 20), the empty dump is derived (log entry 10). -/
def Obligations.DumpShowsItems : Prop :=
  ∀ (s : State) (o c : Int), ∀ form ∈ [(Width.byte, Instr.x1, (1 : Int)), (Width.word, Instr.x2, 2),
      (Width.dword, Instr.x4, 4)],
    (0 ≤ o → 0 ≤ c → o + c * form.2.2 ≤ 0x10000 →
      ∃ rows, exec (form.2.1 o c) s = .next (s.answered (.success (.dump rows))) ∧
        ShowsItems s.mem form.1 o.toNat c.toNat rows) ∧
    (o < 0 ∨ c < 0 ∨ 0x10000 < o + c * form.2.2 → Errs (form.2.1 o c) s .range)

/-- R193: `status` shows every register and the flags line: each flag's letter or `-`, in the order Z, N, H, C, inside
brackets; it changes nothing. That the flags line has no white space, and what stands for the other four lines, is the
model's choice (log entry 10). -/
def Obligations.StatusShowsTheRegisters : Prop :=
  (∀ (p : Params) (x : Text) (xs : List Text), decodeCommand p ⟨"status".toList, x :: xs⟩ = .error .arity) ∧
  ∀ s : State, exec .status s = .next (s.answered (.success (.status s.regs
    ['[', if s.flag .z then 'Z' else '-', if s.flag .n then 'N' else '-', if s.flag .h then 'H' else '-',
      if s.flag .c then 'C' else '-', ']'])))

/-- R194: no examine command (the instructions without machine code) changes a register, a flag or a memory byte,
whether it succeeds or errs (decision D21; log entry 20). -/
def Obligations.ExamineChangesNothing : Prop :=
  ∀ (i : Instr) (s : State), encode i = none → ∃ t a, exec i s = .next t ∧ t.answer = some a ∧ SameBut s t

/-! ## Decoding and encoding -/

/-- The text of every well-formed instruction decodes to it, on an instance that has its mnemonic. -/
def Obligations.TextOfAnInstructionDecodesToIt : Prop :=
  ∀ (params : Params) (i : Instr), i.wf = true → (i.mnemonic.isExt = true → params.extOps = true) →
    decodeCommand params (encodeText i) = .ok i

/-- Every command text that decodes gives a well-formed instruction, of a mnemonic the instance has. -/
def Obligations.DecodedCommandsAreWellFormed : Prop :=
  ∀ (params : Params) (c : Command) (i : Instr), decodeCommand params c = .ok i →
    i.wf = true ∧ (i.mnemonic.isExt = true → params.extOps = true)

/-- The bytes of every instruction decode to it, with every operand at every value, and leave what follows. -/
def Obligations.BytesOfAnInstructionDecodeToIt : Prop :=
  ∀ (i : Instr) (bs rest : List Byte), encode i = some bs → decode (bs ++ rest) = some (i, rest)

/-- Bytes that decode are the bytes of the instruction decoded: no instruction has two encodings. -/
def Obligations.DecodedBytesAreTheInstructionsBytes : Prop :=
  ∀ (bs : List Byte) (i : Instr) (rest : List Byte), decode bs = some (i, rest) →
    ∃ own, encode i = some own ∧ bs = own ++ rest

/-- Words written out from the opcode map of R82 (an annex of general knowledge, decision D30) decode to the
instructions they stand for; halt, `push AF` and an opcode outside the map are refused. -/
def Obligations.OpcodeMapWordsDecode : Prop :=
  decode [0b11000110, 0x3A] = some (.addN8 0x3A, []) ∧ decode [0b10011100] = some (.sbcR8 .h, []) ∧
  decode [0b10110110] = some (.orInd, []) ∧ decode [0b00011001] = some (.addHl .de, []) ∧
  decode [0b00111101] = some (.decR8 .a, []) ∧ decode [0xCB, 0b00110001] = some (.swapR8 .c, []) ∧
  decode [0b00100001, 0x34, 0x12] = some (.ldR16N16 .hl 0x1234, []) ∧
  decode [0b01110011] = some (.ldIndR8 .e, []) ∧ decode [0b00111010] = some (.ldAHld, []) ∧
  decode [0b11100101] = some (.push .hl, []) ∧ decode [0b11010001] = some (.pop .de, []) ∧
  decode [0x76] = none ∧ decode [0xF5] = none ∧ decode [0xCB, 0x46] = none

/-- The step that follows `withFetchWord` runs the instruction of the opcode table's word, on an instance that has
it. How a word is presented is the model's choice (log entry 7). -/
def Obligations.PresentedWordRuns : Prop :=
  ∀ (s : State) (nbits w : Nat) (i : Instr), decodeTableWord nbits w = some i →
    step (s.withFetchWord nbits w) = exec i { s with params := paramsFor (some i) s.params }

/-! ## The classifier -/

/-- R66: a literal gets the maximal set of kinds whose range holds its value, and none outside -32768..65535. -/
def Obligations.LiteralKindsFollowTheRange : Prop :=
  ∀ (raw : Text) (v : Int), literal (raw.map upperChar) = some v →
    (0 ≤ v → v ≤ 7 → classify raw = .known [.u3, .e8, .n8, .n16] (.int v)) ∧
    ((-128 ≤ v ∧ v ≤ -1) ∨ (8 ≤ v ∧ v ≤ 127) → classify raw = .known [.e8, .n8, .n16] (.int v)) ∧
    (128 ≤ v → v ≤ 255 → classify raw = .known [.n8, .n16] (.int v)) ∧
    ((-32768 ≤ v ∧ v ≤ -129) ∨ (256 ≤ v ∧ v ≤ 65535) → classify raw = .known [.n16] (.int v)) ∧
    (v < -32768 ∨ 65535 < v → classify raw = .unknown raw)

/-- R69: texts of equal magnitude and sign, in whatever base, are one token. -/
def Obligations.EqualLiteralsAreOneToken : Prop :=
  (∀ (x y : Text) (v : Int), literal (x.map upperChar) = some v → literal (y.map upperChar) = some v →
    -32768 ≤ v → v ≤ 65535 → classify x = classify y) ∧
  classify "198".toList = .known [.n8, .n16] (.int 198) ∧
  classify "$C6".toList = .known [.n8, .n16] (.int 198) ∧
  classify "%11000110".toList = .known [.n8, .n16] (.int 198)

/-- R67: a text is a symbolic token exactly when its upper-case spelling is a form of the table, with the kinds and the
name the table gives. -/
def Obligations.SymbolsHaveTheirKinds : Prop :=
  ∀ (raw : Text) (ks : List Kind) (x : Symbol),
    classify raw = .known ks (.sym x) ↔ (raw.map upperChar, ks, x) ∈ symbolForms

/-! ## Dispatch -/

/-- When the oldest request is a command, or a line that splits into one, that decodes to an instruction the instance
adopts, the step is that instruction's meaning on the state with the request taken. -/
def Obligations.StepRunsTheDecodedInstruction : Prop :=
  ∀ (s : State) (x : Request) (c : Command) (rest : List Request) (i : Instr), s.pending = x :: rest →
    (x = .command c ∨ ∃ t, x = .line t ∧ splitLine t = some c) →
    decodeCommand s.params c = .ok i → formAdopted s.params i = true →
    step s = exec i { s with pending := rest }

/-- A command that decodes to an error is answered with it, and nothing else changes. -/
def Obligations.StepAnswersADecodingError : Prop :=
  ∀ (s : State) (c : Command) (rest : List Request) (e : CmdError), s.pending = .command c :: rest →
    decodeCommand s.params c = .error e →
    ∃ t, step s = .next t ∧ t.answer = some (.error e) ∧ t.regs = s.regs ∧ t.mem = s.mem ∧
      t.params = s.params ∧ t.pending = rest

/-- R62: a blank line, and a line with only a comment, is a no-op. That white space is spaces and tabs is the model's own
splitting of a line (log entry 6). -/
def Obligations.BlankLineIsANoOp : Prop :=
  ∀ (s : State) (t : Text) (rest : List Request) (space comment : Text), s.pending = .line t :: rest →
    (∀ x ∈ space, isBlank x = true) → (t = space ∨ t = space ++ ';' :: comment) →
    step s = .next ({ s with pending := rest }.answered (.success .none))

/-- R204 (with R71, R84): a mnemonic is unknown exactly when its lower-case spelling is no key of the dispatch table;
operands do not matter. That six keys depend on `EXT_OPS` is the spec's decision D10 (log entry 2). -/
def Obligations.UnknownMnemonicExactlyWithoutAKey : Prop :=
  ∀ (params : Params) (c : Command), decodeCommand params c = .error .unknownMnemonic ↔
    c.mnemonic.map lowerChar ∉ ["adc", "add", "cp", "cpl", "dec", "inc", "ld", "nop", "p", "print", "pop", "push",
      "r/1", "r/2", "r/4", "rrca", "sbc", "srl", "status", "sub", "swap", "x/1", "x/2", "x/4", "xor"].map
        String.toList ∧
    (params.extOps = true →
      c.mnemonic.map lowerChar ∉ ["and", "or", "rlc", "rrc", "sla", "sra"].map String.toList)

/-- R201 (with R73): a command with a known mnemonic is an ArityError exactly when its operand count is none the
mnemonic accepts. The counts of `x/N` are the spec's decision D21, the rank of the error its decision D17 (log entries
20, 21). -/
def Obligations.ArityErrorExactlyOnAWrongCount : Prop :=
  ∀ (params : Params) (c : Command) (m : Mnemonic), dispatchKey params c.mnemonic = some m →
    (decodeCommand params c = .error .arity ↔ c.operands.length ∉ acceptedCounts m)

/-- R205 (with R68, R209): a text that is no literal and no symbolic form is unknown, and so are the texts that R65, R67
and R68 name; with a right operand count, the error is UnknownOperandError exactly when an operand is unknown, and it
records the leftmost one. The rank of the error is the spec's decision D17 (log entry 21). -/
def Obligations.LeftmostUnknownOperandIsReported : Prop :=
  (∀ raw : Text, literal (raw.map upperChar) = none → raw.map upperChar ∉ symbolForms.map (·.1) →
    classify raw = .unknown raw) ∧
  (∀ x ∈ ["F", "AF", "PC", "Z", "NZ", "NC", "[BC]", "[DE]", "[$C000]", "[C]", "[HL+]", "[HL-]", "(HL)", "[ HL ]", "IX",
      "65536", "-32769", "$10000", "12AB", "%102", "$G1", "--1", "+1", "$-10"],
    classify x.toList = .unknown x.toList) ∧
  ∀ (params : Params) (c : Command) (m : Mnemonic) (raw : Text), dispatchKey params c.mnemonic = some m →
    c.operands.length ∈ acceptedCounts m →
    (decodeCommand params c = .error (.unknownOperand raw) ↔
      ∃ before after, c.operands = before ++ raw :: after ∧ classify raw = .unknown raw ∧
        ∀ x ∈ before, Classified x)

/-- R76 (with R77, R9, R74): a command is the instruction i exactly when its mnemonic is i's and its operands, after the
accumulator default, carry the kinds of i's form and have i's values. R202: with a right operand count and every operand
classified, a command that fits no form is a KindMismatchError. R85: the families of forms that are not admitted, each
for all its members. The forms and the answers to all others are the spec's decisions D6 to D8, D11 to D13, D15, D16 and
D21, the rank of the errors is D17 (log entries 13, 14, 16, 17, 19, 20, 21). -/
def Obligations.UnadmittedFormsAreErrors : Prop :=
  (∀ (params : Params) (c : Command) (i : Instr), decodeCommand params c = .ok i ↔ FitsForm params c i) ∧
  (∀ (params : Params) (c : Command) (m : Mnemonic), dispatchKey params c.mnemonic = some m →
    c.operands.length ∈ acceptedCounts m → (∀ x ∈ c.operands, Classified x) → (∀ i, ¬ FitsForm params c i) →
    decodeCommand params c = .error .kindMismatch) ∧
  (∀ (p : Params) (key : Text) (m : Mnemonic) (x y : Text), dispatchKey p key = some m → m.isAccumulator = true →
    Classified x → Classified y → x.map upperChar ≠ "A".toList → (m = .add → x.map upperChar ≠ "HL".toList) →
    decodeCommand p ⟨key, [x, y]⟩ = .error .kindMismatch) ∧
  (∀ (p : Params) (ks : List Kind) (v : Int) (x y : Text), classify x = .known ks (.int v) → Classified y →
    decodeCommand p ⟨"ld".toList, [x, y]⟩ = .error .kindMismatch) ∧
  (∀ (p : Params) (rr qq : R16), decodeCommand p ⟨"inc".toList, [rr.text]⟩ = .error .kindMismatch ∧
    decodeCommand p ⟨"dec".toList, [rr.text]⟩ = .error .kindMismatch ∧
    decodeCommand p ⟨"ld".toList, [rr.text, qq.text]⟩ = .error .kindMismatch) ∧
  (∀ (p : Params) (r : R8), r ≠ .a →
    decodeCommand p ⟨"ld".toList, [r.text, "[HLI]".toList]⟩ = .error .kindMismatch ∧
    decodeCommand p ⟨"ld".toList, ["[HLI]".toList, r.text]⟩ = .error .kindMismatch) ∧
  (∀ p : Params, ∀ x ∈ [("add", ["HL", "SP"]), ("add", ["B", "C"]), ("add", ["HL"]), ("add", ["A", "256"]),
      ("inc", ["SP"]), ("inc", ["[HL]"]), ("dec", ["SP"]), ("dec", ["[HL]"]), ("srl", ["[HL]"]), ("swap", ["[HL]"]),
      ("ld", ["HL", "SP"]), ("ld", ["[HL]", "[HL]"]), ("ld", ["A", "300"]), ("push", ["SP"]), ("r/1", ["A"])],
    decodeCommand p ⟨x.1.toList, x.2.map String.toList⟩ = .error .kindMismatch) ∧
  (∀ (p : Params) (c : Command) (m : Mnemonic) (x : Text), dispatchKey p c.mnemonic = some m →
    c.operands.length ∈ acceptedCounts m → x ∈ c.operands → x.map upperChar ∈ ["F", "PC"].map String.toList →
    ∃ raw, decodeCommand p c = .error (.unknownOperand raw)) ∧
  ∀ p : Params, ∀ x ∈ [("push", ["AF"], "AF"), ("pop", ["AF"], "AF"), ("ld", ["[BC]", "A"], "[BC]"),
      ("ld", ["A", "[DE]"], "[DE]"), ("ld", ["[$C000]", "A"], "[$C000]"), ("ld", ["A", "[$FF00]"], "[$FF00]"),
      ("ld", ["[C]", "A"], "[C]"), ("ld", ["PC", "[BC]"], "PC"), ("inc", ["F"], "F"),
      ("add", ["A", "65536"], "65536")],
    decodeCommand p ⟨x.1.toList, x.2.1.map String.toList⟩ = .error (.unknownOperand x.2.2.toList)

/-- R74: with one operand, the accumulator commands take it as the second, the first being `A`; any other count than one
and two is an ArityError; `add` with one operand is never the 16-bit form. -/
def Obligations.OneOperandMeansTheAccumulator : Prop :=
  ∀ params : Params,
    (∀ m ∈ ["adc", "add", "cp", "sbc", "sub", "xor"],
      (∀ x : Text,
        decodeCommand params ⟨m.toList, [x]⟩ = decodeCommand params ⟨m.toList, ["A".toList, x]⟩) ∧
      ∀ ops : List Text, ops.length ≠ 1 → ops.length ≠ 2 →
        decodeCommand params ⟨m.toList, ops⟩ = .error .arity) ∧
    ∀ (x : Text) (rr : R16), decodeCommand params ⟨"add".toList, [x]⟩ ≠ .ok (.addHl rr)

/-- R63: commands whose mnemonics and operands differ in the case of letters only are one command: they are the same
instruction, or end with the same error (up to the operand text an UnknownOperandError records). -/
def Obligations.CaseDoesNotMatter : Prop :=
  ∀ (params : Params) (c d : Command), c.mnemonic.map lowerChar = d.mnemonic.map lowerChar →
    c.operands.map (·.map upperChar) = d.operands.map (·.map upperChar) →
    (∀ i, decodeCommand params c = .ok i → decodeCommand params d = .ok i) ∧
    (∀ e, e = .arity ∨ e = .kindMismatch ∨ e = .unknownMnemonic →
      decodeCommand params c = .error e → decodeCommand params d = .error e) ∧
    ∀ raw, decodeCommand params c = .error (.unknownOperand raw) →
      ∃ raw', raw'.map upperChar = raw.map upperChar ∧ decodeCommand params d = .error (.unknownOperand raw')

/-- R76: an instance with `INFERRED_FORMS = false` refuses the forms graded I and G, without an error, and runs the
settled ones (decision D13; log entry 3). -/
def Obligations.UnadoptedFormsAreRefused : Prop :=
  ∀ (s : State) (c : Command) (rest : List Request) (i : Instr), s.pending = .command c :: rest →
    s.params.inferredForms = false → decodeCommand s.params c = .ok i →
    (i.grade ≠ .settled → step s = .refused .formNotAdopted) ∧
    (i.grade = .settled → step s = exec i { s with pending := rest })

/-! ## The whole machine -/

/-- The invariant: a step keeps memory in its canonical form, from every state that has it so. -/
def Obligations.StepKeepsCanonicalMemory : Prop :=
  ∀ s t : State, s.Inv → step s = .next t → t.Inv

/-- R230 (memory): after reset every byte of memory reads 0x00 and the memory is canonical. The rest is chosen: the
register file is `RESET_REGS`, zero by default (decision D3, log entry 1), the parameters stand at the defaults of
00_scope section 5, `EXT_OPS` false (decision D10, log entry 2) and `INFERRED_FORMS` true (decision D13, log entry 3),
and in the model's own fields nothing is presented or answered (log entry 4). -/
def Obligations.ResetState : Prop :=
  (∀ (regs : RegFile) (params : Params) (addr : Nat), (State.create regs params).mem.read addr = 0x00) ∧
  (∀ (regs : RegFile) (params : Params),
    (State.create regs params).Inv ∧ (State.create regs params).regs = regs) ∧
  (∀ r, State.reset.reg8 r = 0) ∧ (∀ rr, State.reset.reg16 rr = 0) ∧ State.reset.Inv ∧
  State.reset.params = ⟨false, true⟩ ∧ State.reset.pending = [] ∧ State.reset.answer = none

/-- Every instruction keeps F's low nibble zero when it is (R17). -/
def Obligations.CommandsKeepTheLowNibbleZero : Prop :=
  ∀ (i : Instr) (s t : State), (s.reg8 .f).toNat % 16 = 0 → exec i s = .next t → (t.reg8 .f).toNat % 16 = 0

/-- R22: no command or line changes PC, whether it succeeds or errs; `PC` is no operand; the register port reads and
writes it (decision D22; log entry 22). -/
def Obligations.NoCommandTouchesPc : Prop :=
  (∀ (s t : State) (x : Request) (rest : List Request), s.pending = x :: rest → isCommandRequest x = true →
    step s = .next t → t.reg16 .pc = s.reg16 .pc) ∧
  classify "PC".toList = .unknown "PC".toList ∧
  ∀ s : State, portCall (.get16 "PC".toList) s = .next (s.answered (.success (.value (s.reg16 .pc).toNat))) ∧
    ∀ v : Word, ∃ t, portCall (.set16 "PC".toList v.toNat) s = .next t ∧ t.reg16 .pc = v

/-- R206: a request answered with an error leaves every register and every memory byte as it was. -/
def Obligations.ErrorsChangeNothing : Prop :=
  ∀ (s t : State) (x : Request) (rest : List Request) (e : CmdError), s.pending = x :: rest → step s = .next t →
    t.answer = some (.error e) → t.regs = s.regs ∧ t.mem = s.mem ∧ t.params = s.params

/-- R207 (with R218, R76): no request stops the machine, on an instance that adopts every form: each is taken and
answered, and the instance's parameters stay. An error leaves the session unaffected: registers, memory and all the rest
are what they were, the request taken, and only the answer says that it occurred. -/
def Obligations.EveryRequestIsAnswered : Prop :=
  ∀ (s : State) (x : Request) (rest : List Request), s.pending = x :: rest → s.params.inferredForms = true →
    ∃ t a, step s = .next t ∧ t.answer = some a ∧ t.pending = rest ∧ t.params = s.params ∧
      ∀ e, a = .error e → t.regs = s.regs ∧ t.mem = s.mem ∧ t = { s with pending := rest }.answered (.error e)

/-! ## The register port and the memory port -/

/-- R13: a pair and its two registers are one storage, and an 8-bit write changes no other byte. -/
def Obligations.PairsAreTheirRegisters : Prop :=
  (∀ s : State, ∀ x ∈ [(Reg16.af, Reg8.a, Reg8.f), (Reg16.bc, Reg8.b, Reg8.c), (Reg16.de, Reg8.d, Reg8.e),
      (Reg16.hl, Reg8.h, Reg8.l)],
    (∀ v : Word, ((s.setReg16 x.1 v).reg8 x.2.1).toNat = v.toNat / 256 ∧
      ((s.setReg16 x.1 v).reg8 x.2.2).toNat = v.toNat % 256) ∧
    ∀ h l : Byte, (((s.setReg8 x.2.1 h).setReg8 x.2.2 l).reg16 x.1).toNat = h.toNat * 256 + l.toNat) ∧
  ∀ (s : State) (r : Reg8) (v : Byte), (s.setReg8 r v).reg8 r = v ∧ KeepsRegs s (s.setReg8 r v) [r] ∧
    KeepsPairs s (s.setReg8 r v) [.pc, .sp]

/-- R18: the register port's 8-bit reads and writes; R203 names the error. That a key in lower case is no name of a
register is the model's inference (DEDUCED, log entry 8). -/
def Obligations.BytePortReadsAndWrites : Prop :=
  let names := [("A", Reg8.a), ("F", .f), ("B", .b), ("C", .c), ("D", .d), ("E", .e), ("H", .h), ("L", .l)]
  ∀ s : State, (∀ n ∈ names,
      portCall (.get8 n.1.toList) s = .next (s.answered (.success (.value (s.reg8 n.2).toNat))) ∧
      (∀ v : Int, -128 ≤ v → v ≤ 255 → ∃ t, portCall (.set8 n.1.toList v) s = .next t ∧
        t.answer = some (.success .none) ∧ ((t.reg8 n.2).toNat : Int) = v % 256 ∧ KeepsRegs s t [n.2] ∧
        KeepsPairs s t [.pc, .sp] ∧ KeepsMem s t ∧ KeepsHost s t) ∧
      ∀ v : Int, v < -128 ∨ 255 < v →
        portCall (.set8 n.1.toList v) s = .next (s.answered (.error .range))) ∧
    ∀ (key : Text) (v : Int), key ∉ names.map (·.1.toList) →
      portCall (.get8 key) s = .next (s.answered (.error .range)) ∧
      portCall (.set8 key v) s = .next (s.answered (.error .range))

/-- R19: the register port's 16-bit reads and writes; R203 names the error. That a key in lower case is no name of a
pair is the model's inference (DEDUCED, log entry 8). -/
def Obligations.PairPortReadsAndWrites : Prop :=
  let names := [("AF", Reg16.af), ("BC", .bc), ("DE", .de), ("HL", .hl), ("PC", .pc), ("SP", .sp)]
  ∀ s : State, (∀ n ∈ names,
      portCall (.get16 n.1.toList) s = .next (s.answered (.success (.value (s.reg16 n.2).toNat))) ∧
      (∀ v : Int, -32768 ≤ v → v ≤ 65535 → ∃ t, portCall (.set16 n.1.toList v) s = .next t ∧
        t.answer = some (.success .none) ∧ ((t.reg16 n.2).toNat : Int) = v % 65536 ∧
        (∀ rr, rr ≠ n.2 → t.reg16 rr = s.reg16 rr) ∧ KeepsMem s t ∧ KeepsHost s t) ∧
      ∀ v : Int, v < -32768 ∨ 65535 < v →
        portCall (.set16 n.1.toList v) s = .next (s.answered (.error .range))) ∧
    ∀ (key : Text) (v : Int), key ∉ names.map (·.1.toList) →
      portCall (.get16 key) s = .next (s.answered (.error .range)) ∧
      portCall (.set16 key v) s = .next (s.answered (.error .range))

/-- R20 (with R15): the flag port reads a flag's bit of F, and sets or clears it keeping every other bit; R203 names the
error. That a key in lower case is no name of a flag is the model's inference (DEDUCED, log entry 8). -/
def Obligations.FlagPortKeepsTheOtherBits : Prop :=
  let names := [("Z", 7), ("N", 6), ("H", 5), ("C", 4)]
  ∀ s : State, (∀ n ∈ names,
      portCall (.getFlag n.1.toList) s = .next (s.answered (.success (.flag ((s.reg8 .f).getLsbD n.2)))) ∧
      ∀ b, ∃ t, portCall (.setFlag n.1.toList b) s = .next t ∧ t.answer = some (.success .none) ∧
        (∀ k < 8, (t.reg8 .f).getLsbD k = if k = n.2 then b else (s.reg8 .f).getLsbD k) ∧
        KeepsRegs s t [.f] ∧ KeepsPairs s t [.pc, .sp] ∧ KeepsMem s t ∧ KeepsHost s t) ∧
    ∀ (key : Text) (b : Bool), key ∉ names.map (·.1.toList) →
      portCall (.getFlag key) s = .next (s.answered (.error .range)) ∧
      portCall (.setFlag key b) s = .next (s.answered (.error .range))

/-- R44, R45, R48: the memory port stores a value of the width at any address where it lies whole in 0..0xFFFF and
reads it back at that width, byte by byte, and a 32-bit value in its two 16-bit halves; outside, or for a value that
does not fit, it errs and nothing wraps or is stored. -/
def Obligations.MemoryPortRoundTrip : Prop :=
  ∀ (s : State) (a v : Int), s.Inv → ∀ w ∈ [(Width.byte, (1 : Nat)), (Width.word, 2), (Width.dword, 4)],
    (0 ≤ a → a + w.2 ≤ 0x10000 →
      portCall (.mget w.1 a) s =
        .next (s.answered (.success (.value (leValue s.mem a.toNat w.1)))) ∧
      (0 ≤ v → v < 256 ^ w.2 → ∃ t, portCall (.mset w.1 a v) s = .next t ∧
        t.answer = some (.success .none) ∧ (leValue t.mem a.toNat w.1 : Int) = v ∧
        (∀ i < w.2, (t.mem.read (a.toNat + i)).toNat = v.toNat / 256 ^ i % 256) ∧
        (w.2 = 4 → leValue t.mem a.toNat .word = v.toNat % 65536 ∧
          leValue t.mem (a.toNat + 2) .word = v.toNat / 65536) ∧
        KeepsMemOutside s t a.toNat w.2 ∧ t.Inv ∧ t.regs = s.regs ∧ KeepsHost s t)) ∧
    (a < 0 ∨ 0x10000 < a + w.2 →
      portCall (.mget w.1 a) s = .next (s.answered (.error .range)) ∧
      portCall (.mset w.1 a v) s = .next (s.answered (.error .range))) ∧
    (v < 0 ∨ 256 ^ w.2 ≤ v → portCall (.mset w.1 a v) s = .next (s.answered (.error .range)))
end

