-- ==== Sys2Proof/Laws/PerInstr.lean ====
section
/-! SUPPORT. A fact about every instruction as text: its command passes the mnemonic and operand-count checks of
spec R209 on an instance whose dispatch table has its mnemonic. -/

namespace Sys2Proof.Laws

/-- The spelling of a mnemonic selects it, on an instance that has it. -/
theorem dispatchKey_text (params : Params) (m : Mnemonic) (h : m.isExt = true → params.extOps = true) :
    dispatchKey params m.text = some m := by
  obtain ⟨e, f⟩ := params
  cases e <;> cases m <;> first | rfl | simp [Mnemonic.isExt] at h

/-- The command of an instruction selects its own dispatch key and has the operand count the key requires. -/
def TextShape.Statement (i : Instr) : Prop :=
  ∀ params : Params, (i.mnemonic.isExt = true → params.extOps = true) →
    dispatchKey params (encodeText i).mnemonic = some i.mnemonic ∧
      (normalise i.mnemonic (encodeText i).operands).length = i.mnemonic.arity

theorem TextShape.addN8 : ∀ n, Statement (.addN8 n) :=
  fun _ => fun _ h => ⟨dispatchKey_text _ _ h, rfl⟩

theorem TextShape.addR8 : ∀ r, Statement (.addR8 r) :=
  fun _ => fun _ h => ⟨dispatchKey_text _ _ h, rfl⟩

theorem TextShape.addInd : Statement .addInd :=
  fun _ h => ⟨dispatchKey_text _ _ h, rfl⟩

theorem TextShape.adcN8 : ∀ n, Statement (.adcN8 n) :=
  fun _ => fun _ h => ⟨dispatchKey_text _ _ h, rfl⟩

theorem TextShape.adcR8 : ∀ r, Statement (.adcR8 r) :=
  fun _ => fun _ h => ⟨dispatchKey_text _ _ h, rfl⟩

theorem TextShape.adcInd : Statement .adcInd :=
  fun _ h => ⟨dispatchKey_text _ _ h, rfl⟩

theorem TextShape.subN8 : ∀ n, Statement (.subN8 n) :=
  fun _ => fun _ h => ⟨dispatchKey_text _ _ h, rfl⟩

theorem TextShape.subR8 : ∀ r, Statement (.subR8 r) :=
  fun _ => fun _ h => ⟨dispatchKey_text _ _ h, rfl⟩

theorem TextShape.subInd : Statement .subInd :=
  fun _ h => ⟨dispatchKey_text _ _ h, rfl⟩

theorem TextShape.sbcN8 : ∀ n, Statement (.sbcN8 n) :=
  fun _ => fun _ h => ⟨dispatchKey_text _ _ h, rfl⟩

theorem TextShape.sbcR8 : ∀ r, Statement (.sbcR8 r) :=
  fun _ => fun _ h => ⟨dispatchKey_text _ _ h, rfl⟩

theorem TextShape.sbcInd : Statement .sbcInd :=
  fun _ h => ⟨dispatchKey_text _ _ h, rfl⟩

theorem TextShape.andN8 : ∀ n, Statement (.andN8 n) :=
  fun _ => fun _ h => ⟨dispatchKey_text _ _ h, rfl⟩

theorem TextShape.andR8 : ∀ r, Statement (.andR8 r) :=
  fun _ => fun _ h => ⟨dispatchKey_text _ _ h, rfl⟩

theorem TextShape.andInd : Statement .andInd :=
  fun _ h => ⟨dispatchKey_text _ _ h, rfl⟩

theorem TextShape.xorN8 : ∀ n, Statement (.xorN8 n) :=
  fun _ => fun _ h => ⟨dispatchKey_text _ _ h, rfl⟩

theorem TextShape.xorR8 : ∀ r, Statement (.xorR8 r) :=
  fun _ => fun _ h => ⟨dispatchKey_text _ _ h, rfl⟩

theorem TextShape.xorInd : Statement .xorInd :=
  fun _ h => ⟨dispatchKey_text _ _ h, rfl⟩

theorem TextShape.orN8 : ∀ n, Statement (.orN8 n) :=
  fun _ => fun _ h => ⟨dispatchKey_text _ _ h, rfl⟩

theorem TextShape.orR8 : ∀ r, Statement (.orR8 r) :=
  fun _ => fun _ h => ⟨dispatchKey_text _ _ h, rfl⟩

theorem TextShape.orInd : Statement .orInd :=
  fun _ h => ⟨dispatchKey_text _ _ h, rfl⟩

theorem TextShape.cpN8 : ∀ n, Statement (.cpN8 n) :=
  fun _ => fun _ h => ⟨dispatchKey_text _ _ h, rfl⟩

theorem TextShape.cpR8 : ∀ r, Statement (.cpR8 r) :=
  fun _ => fun _ h => ⟨dispatchKey_text _ _ h, rfl⟩

theorem TextShape.cpInd : Statement .cpInd :=
  fun _ h => ⟨dispatchKey_text _ _ h, rfl⟩

theorem TextShape.addHl : ∀ rr, Statement (.addHl rr) :=
  fun _ => fun _ h => ⟨dispatchKey_text _ _ h, rfl⟩

theorem TextShape.incR8 : ∀ r, Statement (.incR8 r) :=
  fun _ => fun _ h => ⟨dispatchKey_text _ _ h, rfl⟩

theorem TextShape.decR8 : ∀ r, Statement (.decR8 r) :=
  fun _ => fun _ h => ⟨dispatchKey_text _ _ h, rfl⟩

theorem TextShape.cpl : Statement .cpl :=
  fun _ h => ⟨dispatchKey_text _ _ h, rfl⟩

theorem TextShape.rrca : Statement .rrca :=
  fun _ h => ⟨dispatchKey_text _ _ h, rfl⟩

theorem TextShape.rlcR8 : ∀ r, Statement (.rlcR8 r) :=
  fun _ => fun _ h => ⟨dispatchKey_text _ _ h, rfl⟩

theorem TextShape.rrcR8 : ∀ r, Statement (.rrcR8 r) :=
  fun _ => fun _ h => ⟨dispatchKey_text _ _ h, rfl⟩

theorem TextShape.slaR8 : ∀ r, Statement (.slaR8 r) :=
  fun _ => fun _ h => ⟨dispatchKey_text _ _ h, rfl⟩

theorem TextShape.sraR8 : ∀ r, Statement (.sraR8 r) :=
  fun _ => fun _ h => ⟨dispatchKey_text _ _ h, rfl⟩

theorem TextShape.swapR8 : ∀ r, Statement (.swapR8 r) :=
  fun _ => fun _ h => ⟨dispatchKey_text _ _ h, rfl⟩

theorem TextShape.srlR8 : ∀ r, Statement (.srlR8 r) :=
  fun _ => fun _ h => ⟨dispatchKey_text _ _ h, rfl⟩

theorem TextShape.nop : Statement .nop :=
  fun _ h => ⟨dispatchKey_text _ _ h, rfl⟩

theorem TextShape.ldR16N16 : ∀ rr n, Statement (.ldR16N16 rr n) :=
  fun _ _ => fun _ h => ⟨dispatchKey_text _ _ h, rfl⟩

theorem TextShape.ldIndR8 : ∀ r, Statement (.ldIndR8 r) :=
  fun _ => fun _ h => ⟨dispatchKey_text _ _ h, rfl⟩

theorem TextShape.ldR8R8 : ∀ dst src, Statement (.ldR8R8 dst src) :=
  fun _ _ => fun _ h => ⟨dispatchKey_text _ _ h, rfl⟩

theorem TextShape.ldR8N8 : ∀ dst n, Statement (.ldR8N8 dst n) :=
  fun _ _ => fun _ h => ⟨dispatchKey_text _ _ h, rfl⟩

theorem TextShape.ldR8Ind : ∀ dst, Statement (.ldR8Ind dst) :=
  fun _ => fun _ h => ⟨dispatchKey_text _ _ h, rfl⟩

theorem TextShape.ldIndN8 : ∀ n, Statement (.ldIndN8 n) :=
  fun _ => fun _ h => ⟨dispatchKey_text _ _ h, rfl⟩

theorem TextShape.ldHliA : Statement .ldHliA :=
  fun _ h => ⟨dispatchKey_text _ _ h, rfl⟩

theorem TextShape.ldHldA : Statement .ldHldA :=
  fun _ h => ⟨dispatchKey_text _ _ h, rfl⟩

theorem TextShape.ldAHli : Statement .ldAHli :=
  fun _ h => ⟨dispatchKey_text _ _ h, rfl⟩

theorem TextShape.ldAHld : Statement .ldAHld :=
  fun _ h => ⟨dispatchKey_text _ _ h, rfl⟩

theorem TextShape.ldSpN16 : ∀ n, Statement (.ldSpN16 n) :=
  fun _ => fun _ h => ⟨dispatchKey_text _ _ h, rfl⟩

theorem TextShape.ldSpHl : Statement .ldSpHl :=
  fun _ h => ⟨dispatchKey_text _ _ h, rfl⟩

theorem TextShape.push : ∀ rr, Statement (.push rr) :=
  fun _ => fun _ h => ⟨dispatchKey_text _ _ h, rfl⟩

theorem TextShape.pop : ∀ rr, Statement (.pop rr) :=
  fun _ => fun _ h => ⟨dispatchKey_text _ _ h, rfl⟩

theorem TextShape.p : ∀ x, Statement (.p x) :=
  fun _ => fun _ h => ⟨dispatchKey_text _ _ h, rfl⟩

theorem TextShape.print : ∀ x, Statement (.print x) :=
  fun _ => fun _ h => ⟨dispatchKey_text _ _ h, rfl⟩

theorem TextShape.r1 : ∀ addr, Statement (.r1 addr) :=
  fun _ => fun _ h => ⟨dispatchKey_text _ _ h, rfl⟩

theorem TextShape.r2 : ∀ addr, Statement (.r2 addr) :=
  fun _ => fun _ h => ⟨dispatchKey_text _ _ h, rfl⟩

theorem TextShape.r4 : ∀ addr, Statement (.r4 addr) :=
  fun _ => fun _ h => ⟨dispatchKey_text _ _ h, rfl⟩

theorem TextShape.x1 : ∀ offset count, Statement (.x1 offset count) :=
  fun _ _ => fun _ h => ⟨dispatchKey_text _ _ h, rfl⟩

theorem TextShape.x2 : ∀ offset count, Statement (.x2 offset count) :=
  fun _ _ => fun _ h => ⟨dispatchKey_text _ _ h, rfl⟩

theorem TextShape.x4 : ∀ offset count, Statement (.x4 offset count) :=
  fun _ _ => fun _ h => ⟨dispatchKey_text _ _ h, rfl⟩

theorem TextShape.status : Statement .status :=
  fun _ h => ⟨dispatchKey_text _ _ h, rfl⟩

end Sys2Proof.Laws
end

