-- ==== Sys2Proof/Laws/Decode.lean ====
section
/-! SUPPORT. Decoding: the tokens of an instruction's own operand texts, what a decoded command went through, the tokens
the classifier gives, and which instructions a matched form can be. -/

namespace Sys2Proof.Laws

open Sys2Proof.Machine

/-! ## Tokens of operand texts -/

theorem hexChar_digit : ∀ d : Fin 16,
    upperChar (hexChar d) = hexChar d ∧ hexDigit (hexChar d) = some d.val := by decide

theorem upperChar_hexLiteral (v : Nat) : (hexLiteral v).map upperChar = hexLiteral v := by
  have h : ∀ x, upperChar (hexChar (x % 16)) = hexChar (x % 16) :=
    fun x => (hexChar_digit ⟨x % 16, Nat.mod_lt _ (by omega)⟩).1
  simp only [hexLiteral, List.map_cons, List.map_nil, h]
  rfl

theorem magnitude_hexLiteral (v : Nat) (hv : v < 65536) : magnitude (hexLiteral v) = some v := by
  have h : ∀ x, hexDigit (hexChar (x % 16)) = some (x % 16) :=
    fun x => (hexChar_digit ⟨x % 16, Nat.mod_lt _ (by omega)⟩).2
  simp only [hexLiteral, magnitude, digits, digitsFrom, h, Option.some.injEq]
  omega

theorem literal_hexLiteral (v : Nat) (hv : v < 65536) : literal (hexLiteral v) = some (v : Int) := by
  unfold literal
  split
  · rename_i h; simp [hexLiteral] at h
  · rw [magnitude_hexLiteral v hv]; rfl

/-- A value of the widest literal range has kinds, `n16` among them. -/
theorem kindsOf_mem {v : Int} (h : inN16 v = true) : (kindsOf v).contains .n16 = true := by
  simp only [inN16, Bool.and_eq_true, decide_eq_true_eq] at h
  unfold kindsOf
  split_ifs <;> rfl

/-- Outside the widest literal range a value has no kind. -/
theorem kindsOf_eq_nil {v : Int} (h : inN16 v = false) : kindsOf v = [] := by
  simp only [inN16, Bool.and_eq_false_iff, decide_eq_false_iff_not] at h
  unfold kindsOf
  split_ifs <;> first | rfl | omega

/-- A literal of the widest range is one token. -/
theorem classify_literal {raw : Text} {v : Int} (h : literal (raw.map upperChar) = some v) (hv : inN16 v = true) :
    classify raw = .known (kindsOf v) (.int v) := by
  have hk := kindsOf_mem hv
  unfold classify
  simp only [h]
  split
  · rename_i hn; rw [hn] at hk; cases hk
  · rename_i hn; rw [hn]

theorem classify_intLiteral {v : Int} (h : inN16 v = true) : classify (intLiteral v) = .known (kindsOf v) (.int v) := by
  refine classify_literal ?_ h
  simp only [inN16, Bool.and_eq_true, decide_eq_true_eq] at h
  unfold intLiteral
  split
  · rw [List.map_cons, upperChar_hexLiteral]
    show literal ('-' :: hexLiteral v.natAbs) = _
    simp only [literal, magnitude_hexLiteral v.natAbs (by omega)]
    show some (-(v.natAbs : Int)) = _
    rw [show -(v.natAbs : Int) = v by omega]
  · rw [upperChar_hexLiteral, literal_hexLiteral v.natAbs (by omega)]
    congr 1
    omega

theorem classify_hexLiteral {v : Nat} (h : v < 65536) : classify (hexLiteral v) = .known (kindsOf v) (.int v) := by
  refine classify_literal (by rw [upperChar_hexLiteral, literal_hexLiteral v h]) ?_
  simp only [inN16, Bool.and_eq_true, decide_eq_true_eq]
  omega

/-- A literal token whose value is an `n16` one. -/
theorem int?_classify {raw : Text} {v : Int} (h : (classify raw).int? = some v) : inN16 v = true := by
  unfold classify at h
  simp only at h
  split at h
  · rename_i w hw
    cases hin : inN16 w with
    | false => rw [kindsOf_eq_nil hin] at h; cases h
    | true =>
      split at h
      · cases h
      · simp only [Token.int?] at h
        split at h
        · rename_i heq; cases heq; cases h; exact hin
        · cases h
  · split at h
    · simp only [Token.int?] at h
      split at h
      · rename_i heq; cases heq
      · cases h
    · cases h

/-- An unknown token keeps its text. -/
theorem classify_unknown {x raw : Text} (h : classify x = .unknown raw) : x = raw := by
  unfold classify at h
  simp only at h
  split at h <;> split at h <;> cases h <;> rfl

/-! ## Dispatch -/

/-- A dispatch key is one whose spelling is the mnemonic in lower case, and `EXT_OPS` if it is gated. -/
theorem dispatchKey_eq_some {params : Params} {t : Text} {m : Mnemonic} (h : dispatchKey params t = some m) :
    m.text = t.map lowerChar ∧ (m.isExt = true → params.extOps = true) := by
  have h := List.find?_some h
  simp only [Bool.and_eq_true, beq_iff_eq, Bool.or_eq_true, Bool.not_eq_true'] at h
  exact ⟨h.1, fun he => h.2.resolve_left (by simp [he])⟩

/-- A mnemonic is unknown when every key of its spelling is a gated one on an instance without `EXT_OPS`. -/
theorem dispatchKey_eq_none {params : Params} {t : Text} :
    dispatchKey params t = none ↔
      ∀ m : Mnemonic, m.text = t.map lowerChar → m.isExt = true ∧ params.extOps = false := by
  have hm : ∀ m, m ∈ Mnemonic.all := by intro m; cases m <;> decide
  unfold dispatchKey
  rw [List.find?_eq_none]
  refine ⟨fun h m ht => ?_, fun h m _ => ?_⟩
  · have := h m (hm m)
    simpa [ht] using this
  · simp only [Bool.and_eq_true, beq_iff_eq, Bool.or_eq_true, Bool.not_eq_true', not_and, not_or]
    intro ht
    have := h m ht
    simp [this]

/-- Decoding of a command with a known mnemonic. -/
theorem decodeCommand_of_key {params : Params} {c : Command} {m : Mnemonic} (h : dispatchKey params c.mnemonic = some m) :
    decodeCommand params c =
      if (normalise m c.operands).length ≠ m.arity then .error .arity
      else match firstUnknown ((normalise m c.operands).map classify) with
        | some raw => .error (.unknownOperand raw)
        | none =>
          match matchForm m ((normalise m c.operands).map classify) with
          | some i => .ok i
          | none => .error .kindMismatch := by
  simp only [decodeCommand, h] <;> rfl

/-- What a decoded command went through. -/
theorem decodeCommand_eq_ok {params : Params} {c : Command} {i : Instr} (h : decodeCommand params c = .ok i) :
    ∃ m, dispatchKey params c.mnemonic = some m ∧ (normalise m c.operands).length = m.arity ∧
      firstUnknown ((normalise m c.operands).map classify) = none ∧
      matchForm m ((normalise m c.operands).map classify) = some i := by
  cases hm : dispatchKey params c.mnemonic with
  | none => simp [decodeCommand, hm] at h
  | some m =>
    rw [decodeCommand_of_key hm] at h
    refine ⟨m, rfl, ?_⟩
    split at h
    · cases h
    · rename_i ha
      split at h
      · cases h
      · rename_i hu
        split at h
        · rename_i hf; cases h; exact ⟨by simpa using ha, hu, hf⟩
        · cases h

/-- The operand counts that pass the check of spec R73 after the accumulator default of spec R74. -/
theorem normalise_length (m : Mnemonic) (ops : List Text) :
    (normalise m ops).length = m.arity ↔ ops.length ∈ acceptedCounts m := by
  rcases ops with _ | ⟨x, _ | ⟨y, r⟩⟩
  · cases m <;> decide
  · cases m <;> simp [normalise, Mnemonic.isAccumulator, Mnemonic.arity, acceptedCounts]
  · have : normalise m (x :: y :: r) = x :: y :: r := by unfold normalise; cases m.isAccumulator <;> rfl
    rw [this]
    cases m <;> simp [Mnemonic.arity, acceptedCounts]

/-- The accumulator default adds no unknown operand. -/
theorem firstUnknown_normalise (m : Mnemonic) (ops : List Text) :
    firstUnknown ((normalise m ops).map classify) = firstUnknown (ops.map classify) := by
  unfold normalise
  split
  · have : classify ['A'] = .known [.accA, .r8] (.sym (.r8 .a)) := rfl
    simp [this, firstUnknown]
  · rfl

/-! ## Forms -/

/-- The first form that fits is one of the forms tried. -/
theorem firstForm_mem {l : List (Option Instr)} {i : Instr} (h : firstForm l = some i) : some i ∈ l := by
  induction l with
  | nil => cases h
  | cons x rest ih =>
    cases x with
    | none => exact List.mem_cons_of_mem _ (ih h)
    | some j => cases h; exact List.mem_cons_self

theorem formIf_eq_some {c : Bool} {i j : Instr} (h : formIf c i = some j) : c = true ∧ j = i := by
  unfold formIf at h
  split at h
  · rename_i hc; cases h; exact ⟨hc, rfl⟩
  · cases h

theorem formOf2_eq_some {α β : Type} {mk : α → β → Instr} {x : Option α} {y : Option β} {j : Instr}
    (h : formOf2 mk x y = some j) : ∃ a b, x = some a ∧ y = some b ∧ j = mk a b := by
  unfold formOf2 at h
  split at h
  · cases h; exact ⟨_, _, rfl, rfl, rfl⟩
  · cases h

/-! ## Tokens the classifier gives -/

/-- Every token of the classifier: a literal's, a symbolic form's, or unknown (spec R66 to R68). -/
theorem classify_eq_known {raw : Text} {ks : List Kind} {v : TokenValue} (h : classify raw = .known ks v) :
    (∃ n, v = .int n ∧ inN16 n = true ∧ ks = kindsOf n ∧ literal (raw.map upperChar) = some n) ∨
    ∃ x, v = .sym x ∧ literal (raw.map upperChar) = none ∧ symbolOf (raw.map upperChar) = some (ks, x) := by
  unfold classify at h
  simp only at h
  split at h
  · rename_i n hl
    left
    cases hn : inN16 n with
    | false => rw [kindsOf_eq_nil hn] at h; cases h
    | true =>
      split at h
      · cases h
      · rename_i hk; cases h; exact ⟨n, rfl, hn, hk.symm, hl⟩
  · rename_i hl
    right
    split at h
    · rename_i hs; cases h; exact ⟨_, rfl, hl, hs⟩
    · cases h

/-- The symbolic forms the classifier knows are those of the table (spec R67). -/
theorem symbolOf_eq_some {t : Text} {ks : List Kind} {x : Symbol} :
    symbolOf t = some (ks, x) ↔ (t, ks, x) ∈ symbolForms := by
  constructor
  · intro h
    unfold symbolOf at h
    iterate 14
      obtain ⟨rfl, h⟩ | ⟨-, h⟩ := ite_eq_iff.1 h
      · cases h; decide
    cases h
  · intro h
    have table : ∀ row ∈ symbolForms, symbolOf row.1 = some row.2 := by decide
    exact table _ h

/-- No symbolic form is a literal. -/
theorem literal_of_symbolForms {t : Text} {ks : List Kind} {x : Symbol} (h : (t, ks, x) ∈ symbolForms) :
    literal t = none := by
  have : ∀ row ∈ symbolForms, literal row.1 = none := by decide
  exact this _ h

/-! ## What a form takes from a token, as a fit -/

theorem has_iff_fits {k : Kind} {t : Token} : t.has k = true ↔ (Operand.fixed k).Fits t := by
  cases t <;> simp [Token.has, Operand.Fits]

theorem r8?_iff_fits {r : R8} {t : Token} : t.r8? = some r ↔ (Operand.reg8 r).Fits t := by
  unfold Token.r8?
  split
  · simp_all [Token.has, Operand.Fits]
  · rename_i hno
    simp only [reduceCtorEq, false_iff]
    rintro ⟨ks, rfl, hk⟩
    exact hno _ _ (by simpa [Token.has] using hk) rfl

theorem r16?_iff_fits {rr : R16} {t : Token} : t.r16? = some rr ↔ (Operand.reg16 rr).Fits t := by
  unfold Token.r16?
  split
  · simp_all [Token.has, Operand.Fits]
  · rename_i hno
    simp only [reduceCtorEq, false_iff]
    rintro ⟨ks, rfl, hk⟩
    exact hno _ _ (by simpa [Token.has] using hk) rfl

theorem int?_iff_fits {v : Int} {t : Token} : t.int? = some v ↔ (Operand.whole v).Fits t := by
  unfold Token.int?
  split
  · simp_all [Token.has, Operand.Fits]
  · rename_i hno
    simp only [reduceCtorEq, false_iff]
    rintro ⟨ks, rfl, hk⟩
    exact hno _ _ (by simpa [Token.has] using hk) rfl

/-- Reduction of an integer to a width, as a remainder (spec R77). -/
theorem ofInt_eq_iff {w : Nat} {v : Int} {n : BitVec w} : BitVec.ofInt w v = n ↔ (n.toNat : Int) = v % 2 ^ w := by
  have h0 : (0 : Int) < 2 ^ w := by positivity
  rw [← BitVec.toNat_inj, BitVec.toNat_ofInt]
  have := Int.emod_nonneg v (ne_of_gt h0)
  push_cast
  omega

theorem n8?_iff_fits {n : Byte} {t : Token} : t.n8? = some n ↔ (Operand.imm8 n).Fits t := by
  unfold Token.n8?
  split
  · simp_all [Token.has, Operand.Fits, ofInt_eq_iff]
  · rename_i hno
    simp only [reduceCtorEq, false_iff]
    rintro ⟨ks, v, rfl, hk, _⟩
    exact hno _ _ (by simpa [Token.has] using hk) rfl

theorem n16?_iff_fits {n : Word} {t : Token} : t.n16? = some n ↔ (Operand.imm16 n).Fits t := by
  simp only [Token.n16?, Option.map_eq_some_iff, int?_iff_fits, ofInt_eq_iff, Operand.Fits]
  constructor
  · rintro ⟨v, ⟨ks, rfl, hk⟩, hn⟩; exact ⟨ks, v, rfl, hk, hn⟩
  · rintro ⟨ks, v, rfl, hk, hn⟩; exact ⟨v, ⟨ks, rfl, hk⟩, hn⟩

theorem printArg?_iff_fits {x : PrintArg} {t : Token} : t.printArg? = some x ↔ (Operand.shown x).Fits t := by
  unfold Token.printArg?
  split <;> cases x <;> simp [Operand.Fits, shownValue]

/-- A literal's token names no register and has no kind but the numeric ones (spec R66). -/
theorem classify_int {raw : Text} {ks : List Kind} {v : Int} (h : classify raw = .known ks (.int v)) :
    (classify raw).r8? = none ∧ (classify raw).r16? = none ∧
      ∀ k, k ∉ [Kind.u3, .e8, .n8, .n16] → (classify raw).has k = false := by
  obtain ⟨n, e, -, rfl, -⟩ | ⟨x, e, -⟩ := classify_eq_known h
  · cases e
    refine ⟨?_, ?_, fun k hk => ?_⟩
    · cases hr : (classify raw).r8? with
      | none => rfl
      | some r => obtain ⟨_, e, -⟩ := r8?_iff_fits.1 hr; cases h.symm.trans e
    · cases hr : (classify raw).r16? with
      | none => rfl
      | some r => obtain ⟨_, e, -⟩ := r16?_iff_fits.1 hr; cases h.symm.trans e
    · have hsub : ∀ j ∈ kindsOf v, j ∈ [Kind.u3, .e8, .n8, .n16] := by unfold kindsOf; split_ifs <;> decide
      cases hh : (classify raw).has k with
      | false => rfl
      | true => obtain ⟨_, _, e, hm⟩ := has_iff_fits.1 hh; cases h.symm.trans e; exact absurd (hsub k hm) hk
  · cases e

/-! ## What a matched form is -/

/-- The three accumulator forms (spec R76). -/
theorem accForm_eq_some {onN8 : Byte → Instr} {onR8 : R8 → Instr} {onInd : Instr} {d x : Token} {j : Instr}
    (h : accForm onN8 onR8 onInd d x = some j) : (Operand.fixed .accA).Fits d ∧
      ((∃ n, j = onN8 n ∧ (Operand.imm8 n).Fits x) ∨ (∃ r, j = onR8 r ∧ (Operand.reg8 r).Fits x) ∨
        j = onInd ∧ (Operand.fixed .atHL).Fits x) := by
  unfold accForm at h
  split at h
  · rename_i hd
    have h := firstForm_mem h
    simp only [List.mem_cons, List.not_mem_nil, or_false] at h
    refine ⟨has_iff_fits.1 hd, ?_⟩
    obtain h | h | h := h
    · obtain ⟨r, hr, rfl⟩ := Option.map_eq_some_iff.1 h.symm; exact .inr (.inl ⟨r, rfl, r8?_iff_fits.1 hr⟩)
    · obtain ⟨n, hn, rfl⟩ := Option.map_eq_some_iff.1 h.symm; exact .inl ⟨n, rfl, n8?_iff_fits.1 hn⟩
    · obtain ⟨hx, rfl⟩ := formIf_eq_some h.symm; exact .inr (.inr ⟨rfl, has_iff_fits.1 hx⟩)
  · cases h

/-- A form with one operand. -/
theorem map_eq_some_fits {α : Type} {f : Token → Option α} {o : α → Operand} (hf : ∀ {v t}, f t = some v ↔ (o v).Fits t)
    {mk : α → Instr} {t : Token} {i : Instr} (h : (f t).map mk = some i) : ∃ v, i = mk v ∧ (o v).Fits t := by
  obtain ⟨v, hv, rfl⟩ := Option.map_eq_some_iff.1 h
  exact ⟨v, rfl, hf.1 hv⟩

/-- The twelve forms of `ld` (spec R173). -/
theorem ldForm_eq_some {d x : Token} {i : Instr} (h : ldForm d x = some i) :
    i.mnemonic = .ld ∧ List.Forall₂ Operand.Fits (formOperands i) [d, x] := by
  have two : ∀ {c1 c2 : Bool} {j : Instr}, formIf (c1 && c2) j = some i → c1 = true ∧ c2 = true ∧ i = j := by
    intro c1 c2 j h
    obtain ⟨hc, rfl⟩ := formIf_eq_some h
    exact ⟨(Bool.and_eq_true_iff.1 hc).1, (Bool.and_eq_true_iff.1 hc).2, rfl⟩
  have cond : ∀ {c : Bool} {o : Option Instr}, (if c then o else none) = some i → c = true ∧ o = some i := by
    intro c o h
    split at h
    · exact ⟨‹_›, h⟩
    · cases h
  have h := firstForm_mem h
  simp only [List.mem_cons, List.not_mem_nil, or_false] at h
  obtain h | h | h | h | h | h | h | h | h | h | h | h := h
  · obtain ⟨_, _, h1, h2, rfl⟩ := formOf2_eq_some h.symm
    exact ⟨rfl, .cons (r8?_iff_fits.1 h1) (.cons (r8?_iff_fits.1 h2) .nil)⟩
  · obtain ⟨_, _, h1, h2, rfl⟩ := formOf2_eq_some h.symm
    exact ⟨rfl, .cons (r8?_iff_fits.1 h1) (.cons (n8?_iff_fits.1 h2) .nil)⟩
  · obtain ⟨hc, h⟩ := cond h.symm
    obtain ⟨_, rfl, hd⟩ := map_eq_some_fits r8?_iff_fits h
    exact ⟨rfl, .cons hd (.cons (has_iff_fits.1 hc) .nil)⟩
  · obtain ⟨h1, h2, rfl⟩ := two h.symm
    exact ⟨rfl, .cons (has_iff_fits.1 h1) (.cons (has_iff_fits.1 h2) .nil)⟩
  · obtain ⟨h1, h2, rfl⟩ := two h.symm
    exact ⟨rfl, .cons (has_iff_fits.1 h1) (.cons (has_iff_fits.1 h2) .nil)⟩
  · obtain ⟨hc, h⟩ := cond h.symm
    obtain ⟨_, rfl, hx⟩ := map_eq_some_fits r8?_iff_fits h
    exact ⟨rfl, .cons (has_iff_fits.1 hc) (.cons hx .nil)⟩
  · obtain ⟨hc, h⟩ := cond h.symm
    obtain ⟨_, rfl, hx⟩ := map_eq_some_fits n8?_iff_fits h
    exact ⟨rfl, .cons (has_iff_fits.1 hc) (.cons hx .nil)⟩
  · obtain ⟨h1, h2, rfl⟩ := two h.symm
    exact ⟨rfl, .cons (has_iff_fits.1 h1) (.cons (has_iff_fits.1 h2) .nil)⟩
  · obtain ⟨h1, h2, rfl⟩ := two h.symm
    exact ⟨rfl, .cons (has_iff_fits.1 h1) (.cons (has_iff_fits.1 h2) .nil)⟩
  · obtain ⟨_, _, h1, h2, rfl⟩ := formOf2_eq_some h.symm
    exact ⟨rfl, .cons (r16?_iff_fits.1 h1) (.cons (n16?_iff_fits.1 h2) .nil)⟩
  · obtain ⟨hc, h⟩ := cond h.symm
    obtain ⟨_, rfl, hx⟩ := map_eq_some_fits n16?_iff_fits h
    exact ⟨rfl, .cons (has_iff_fits.1 hc) (.cons hx .nil)⟩
  · obtain ⟨h1, h2, rfl⟩ := two h.symm
    exact ⟨rfl, .cons (has_iff_fits.1 h1) (.cons (has_iff_fits.1 h2) .nil)⟩

/-- A matched form is one of its mnemonic, and the tokens fit it (spec R76, R77). -/
theorem matchForm_eq_some {m : Mnemonic} {toks : List Token} {i : Instr} (h : matchForm m toks = some i) :
    i.mnemonic = m ∧ List.Forall₂ Operand.Fits (formOperands i) toks := by
  unfold matchForm at h
  split at h
  · have h := firstForm_mem h
    simp only [List.mem_cons, List.not_mem_nil, or_false] at h
    obtain h | h := h
    · obtain ⟨hd, ⟨_, rfl, hx⟩ | ⟨_, rfl, hx⟩ | ⟨rfl, hx⟩⟩ := accForm_eq_some h.symm <;>
        exact ⟨rfl, .cons hd (.cons hx .nil)⟩
    · split at h
      · rename_i hd
        obtain ⟨_, rfl, hx⟩ := map_eq_some_fits r16?_iff_fits h.symm
        exact ⟨rfl, .cons (has_iff_fits.1 hd) (.cons hx .nil)⟩
      · cases h
  iterate 7
    · obtain ⟨hd, ⟨_, rfl, hx⟩ | ⟨_, rfl, hx⟩ | ⟨rfl, hx⟩⟩ := accForm_eq_some h <;>
        exact ⟨rfl, .cons hd (.cons hx .nil)⟩
  iterate 8
    · obtain ⟨_, rfl, hx⟩ := map_eq_some_fits r8?_iff_fits h; exact ⟨rfl, .cons hx .nil⟩
  iterate 2
    · obtain ⟨_, rfl, hx⟩ := map_eq_some_fits r16?_iff_fits h; exact ⟨rfl, .cons hx .nil⟩
  iterate 2
    · obtain ⟨_, rfl, hx⟩ := map_eq_some_fits printArg?_iff_fits h; exact ⟨rfl, .cons hx .nil⟩
  iterate 3
    · obtain ⟨_, rfl, hx⟩ := map_eq_some_fits int?_iff_fits h; exact ⟨rfl, .cons hx .nil⟩
  · exact ldForm_eq_some h
  iterate 3
    · obtain ⟨_, _, h1, h2, rfl⟩ := formOf2_eq_some h
      exact ⟨rfl, .cons (int?_iff_fits.1 h1) (.cons (int?_iff_fits.1 h2) .nil)⟩
  iterate 4
    · cases h; exact ⟨rfl, .nil⟩
  · cases h

end Sys2Proof.Laws
end

