-- ==== Sys2Proof/Laws/State.lean ====
section
/-! SUPPORT. One lemma per field per update of the state, true by rfl. -/

namespace Sys2Proof.Machine

section
variable (s : State) (r : Reg8) (rr : Reg16) (v : Byte) (w : Word) (m : Memory) (x : Answer)

@[simp] theorem setReg8_regs : (s.setReg8 r v).regs = regSet8 s.regs r v := rfl
@[simp] theorem setReg8_mem : (s.setReg8 r v).mem = s.mem := rfl
@[simp] theorem setReg8_params : (s.setReg8 r v).params = s.params := rfl
@[simp] theorem setReg8_pending : (s.setReg8 r v).pending = s.pending := rfl
@[simp] theorem setReg8_answer : (s.setReg8 r v).answer = s.answer := rfl

@[simp] theorem setReg16_regs : (s.setReg16 rr w).regs = regSet16 s.regs rr w := rfl
@[simp] theorem setReg16_mem : (s.setReg16 rr w).mem = s.mem := rfl
@[simp] theorem setReg16_params : (s.setReg16 rr w).params = s.params := rfl
@[simp] theorem setReg16_pending : (s.setReg16 rr w).pending = s.pending := rfl
@[simp] theorem setReg16_answer : (s.setReg16 rr w).answer = s.answer := rfl

@[simp] theorem setMem_regs : (s.setMem m).regs = s.regs := rfl
@[simp] theorem setMem_mem : (s.setMem m).mem = m := rfl
@[simp] theorem setMem_params : (s.setMem m).params = s.params := rfl
@[simp] theorem setMem_pending : (s.setMem m).pending = s.pending := rfl
@[simp] theorem setMem_answer : (s.setMem m).answer = s.answer := rfl
@[simp] theorem setMem_reg8 : (s.setMem m).reg8 r = s.reg8 r := rfl
@[simp] theorem setMem_reg16 : (s.setMem m).reg16 rr = s.reg16 rr := rfl

@[simp] theorem answered_regs : (s.answered x).regs = s.regs := rfl
@[simp] theorem answered_mem : (s.answered x).mem = s.mem := rfl
@[simp] theorem answered_params : (s.answered x).params = s.params := rfl
@[simp] theorem answered_pending : (s.answered x).pending = s.pending := rfl
@[simp] theorem answered_answer : (s.answered x).answer = some x := rfl
@[simp] theorem answered_reg8 : (s.answered x).reg8 r = s.reg8 r := rfl
@[simp] theorem answered_reg16 : (s.answered x).reg16 rr = s.reg16 rr := rfl

end

/-- Register files are equal when their twelve bytes are. -/
theorem regFile_ext {x y : RegFile} (ha : x.a = y.a) (hf : x.f = y.f) (hb : x.b = y.b) (hc : x.c = y.c)
    (hd : x.d = y.d) (he : x.e = y.e) (hh : x.h = y.h) (hl : x.l = y.l) (hp : x.pch = y.pch) (hq : x.pcl = y.pcl)
    (hs : x.sph = y.sph) (ht : x.spl = y.spl) : x = y := by
  cases x; cases y; simp_all

end Sys2Proof.Machine
end

