-- ==== Sys2Proof/Laws/Registers.lean ====
section
/-! SUPPORT. The register file: what a read returns after a write, through the same view or the other one. -/

namespace Sys2Proof.Machine

@[simp] theorem hiByte_pair (hi lo : Byte) : hiByte (pair hi lo) = hi := by
  apply BitVec.eq_of_toNat_eq
  simp only [hiByte, pair, BitVec.toNat_ofNat]
  have := hi.isLt; have := lo.isLt
  omega

@[simp] theorem loByte_pair (hi lo : Byte) : loByte (pair hi lo) = lo := by
  apply BitVec.eq_of_toNat_eq
  simp only [loByte, pair, BitVec.toNat_ofNat]
  have := hi.isLt; have := lo.isLt
  omega

@[simp] theorem pair_hiByte_loByte (v : Word) : pair (hiByte v) (loByte v) = v := by
  apply BitVec.eq_of_toNat_eq
  simp only [hiByte, loByte, pair, BitVec.toNat_ofNat]
  have := v.isLt
  omega

/-- An 8-bit read after an 8-bit write. -/
theorem reg8_setReg8 (s : State) (r q : Reg8) (v : Byte) :
    (s.setReg8 r v).reg8 q = if q = r then v else s.reg8 q := by
  cases r <;> cases q <;> rfl

@[simp] theorem reg8_setReg8_self (s : State) (r : Reg8) (v : Byte) : (s.setReg8 r v).reg8 r = v := by
  simp [reg8_setReg8]

theorem reg8_setReg8_of_ne (s : State) {r q : Reg8} (v : Byte) (h : q ≠ r) : (s.setReg8 r v).reg8 q = s.reg8 q := by
  simp [reg8_setReg8, h]

/-- A 16-bit read after a 16-bit write. -/
theorem reg16_setReg16 (s : State) (r q : Reg16) (v : Word) :
    (s.setReg16 r v).reg16 q = if q = r then v else s.reg16 q := by
  cases r <;> cases q <;> simp [State.reg16, State.setReg16, regGet16, regSet16]

@[simp] theorem reg16_setReg16_self (s : State) (r : Reg16) (v : Word) : (s.setReg16 r v).reg16 r = v := by
  simp [reg16_setReg16]

/-- No 8-bit write reaches PC. -/
@[simp] theorem pc_setReg8 (s : State) (r : Reg8) (v : Byte) : (s.setReg8 r v).reg16 .pc = s.reg16 .pc := by
  cases r <;> rfl

/-- No 8-bit write reaches SP. -/
@[simp] theorem sp_setReg8 (s : State) (r : Reg8) (v : Byte) : (s.setReg8 r v).reg16 .sp = s.reg16 .sp := by
  cases r <;> rfl

/-- The 8-bit registers after a write of a pair. -/
theorem reg8_setReg16 (s : State) (rr : Reg16) (q : Reg8) (v : Word) :
    (s.setReg16 rr v).reg8 q =
      match rr, q with
      | .af, .a | .bc, .b | .de, .d | .hl, .h => hiByte v
      | .af, .f | .bc, .c | .de, .e | .hl, .l => loByte v
      | _, _ => s.reg8 q := by
  cases rr <;> cases q <;> rfl

@[simp] theorem reg8_setReg16_sp (s : State) (q : Reg8) (v : Word) : (s.setReg16 .sp v).reg8 q = s.reg8 q := by
  cases q <;> rfl

/-- An operand register is not F. -/
@[simp] theorem r8Reg_ne_f (r : R8) : r8Reg r ≠ .f := by cases r <;> decide

@[simp] theorem f_ne_r8Reg (r : R8) : Reg8.f ≠ r8Reg r := by cases r <;> decide

/-- Writing F leaves an operand register as it is. -/
@[simp] theorem r8_setF (s : State) (r : R8) (v : Byte) : (s.setReg8 .f v).reg8 (r8Reg r) = s.reg8 (r8Reg r) := by
  cases r <;> rfl

@[simp] theorem a_setF (s : State) (v : Byte) : (s.setReg8 .f v).reg8 .a = s.reg8 .a := rfl

/-- An operand pair is neither PC nor SP. -/
theorem r16Reg_ne (rr : R16) : r16Reg rr ≠ .pc ∧ r16Reg rr ≠ .sp ∧ r16Reg rr ≠ .af := by
  cases rr <;> decide

end Sys2Proof.Machine
end

