-- ==== Sys2Proof/Laws/Flags.lean ====
section
/-! SUPPORT. The packed flags byte: its flags and its low nibble, and the kernel's sums and differences as bit vectors. -/

namespace Sys2Proof.Machine

@[simp] theorem flagOf_pack_z (z n h c : Bool) : flagOf (pack z n h c) .z = z := by
  cases z <;> cases n <;> cases h <;> cases c <;> rfl

@[simp] theorem flagOf_pack_n (z n h c : Bool) : flagOf (pack z n h c) .n = n := by
  cases z <;> cases n <;> cases h <;> cases c <;> rfl

@[simp] theorem flagOf_pack_h (z n h c : Bool) : flagOf (pack z n h c) .h = h := by
  cases z <;> cases n <;> cases h <;> cases c <;> rfl

@[simp] theorem flagOf_pack_c (z n h c : Bool) : flagOf (pack z n h c) .c = c := by
  cases z <;> cases n <;> cases h <;> cases c <;> rfl

@[simp] theorem pack_low (z n h c : Bool) : (pack z n h c).toNat % 16 = 0 := by
  cases z <;> cases n <;> cases h <;> cases c <;> rfl

/-- The result of `add8` is the sum modulo 256. -/
theorem add8_result (a : Byte) (x : Nat) : (add8 a x).1 = a + BitVec.ofNat 8 x := by
  apply BitVec.eq_of_toNat_eq
  simp [add8]

/-- The result of `sub8` is the difference modulo 256. -/
theorem sub8_result (a : Byte) (x : Nat) : (sub8 a x).1 = a - BitVec.ofNat 8 x := by
  show BitVec.ofInt 8 ((a.toNat : Int) - (x : Int)) = _
  rw [show (a.toNat : Int) - (x : Int) = (a.toNat : Int) + -(x : Int) by omega, BitVec.ofInt_add, BitVec.ofInt_neg,
    BitVec.ofInt_natCast, BitVec.ofInt_natCast, BitVec.ofNat_toNat, BitVec.setWidth_eq, ← BitVec.sub_eq_add_neg]

/-- `bit i` of a sum differs from bit i of the XOR of the addends exactly when a carry enters bit i. -/
theorem xor_testBit_carry (a x i : Nat) :
    (a ^^^ x ^^^ (a + x)).testBit i = decide (2 ^ i ≤ a % 2 ^ i + x % 2 ^ i) := by
  rw [Nat.testBit_xor, Nat.testBit_xor]
  simp only [Nat.testBit_eq_decide_div_mod_eq]
  have ha := Nat.div_add_mod a (2 ^ i)
  have hx := Nat.div_add_mod x (2 ^ i)
  have hp : 0 < 2 ^ i := Nat.two_pow_pos i
  have hla := Nat.mod_lt a hp
  have hlx := Nat.mod_lt x hp
  have hsum : (a + x) / 2 ^ i = a / 2 ^ i + x / 2 ^ i + if 2 ^ i ≤ a % 2 ^ i + x % 2 ^ i then 1 else 0 :=
    Nat.add_div hp
  rw [hsum]
  by_cases hc : 2 ^ i ≤ a % 2 ^ i + x % 2 ^ i
  · simp only [hc, if_true]
    rcases Nat.mod_two_eq_zero_or_one (a / 2 ^ i) with h1 | h1 <;>
      rcases Nat.mod_two_eq_zero_or_one (x / 2 ^ i) with h2 | h2 <;> simp [Nat.add_mod, h1, h2]
  · simp only [hc, if_false]
    rcases Nat.mod_two_eq_zero_or_one (a / 2 ^ i) with h1 | h1 <;>
      rcases Nat.mod_two_eq_zero_or_one (x / 2 ^ i) with h2 | h2 <;> simp [Nat.add_mod, h1, h2]

end Sys2Proof.Machine
end

