-- ==== Sys2Proof/Laws/Kernel.lean ====
section
/-! SUPPORT. One lemma per arithmetic kernel function: its result as a bit vector and its flags as comparisons. -/

namespace Sys2Proof.Machine

theorem beq_zero (x : Byte) : (x == 0) = decide (x = 0) := by
  rw [Bool.eq_iff_iff]; simp

theorem sub_eq_zero_decide (a x : Byte) : decide (a - x = 0) = decide (a = x) := by
  rw [Bool.eq_iff_iff]
  simp only [decide_eq_true_eq]
  constructor
  · intro h; simpa using (BitVec.sub_eq_iff_eq_add.1 h)
  · rintro rfl; simp

/-- Bit 4 of XOR is the carry out of the low nibbles. -/
theorem halfCarry8 (a x : Nat) : (a ^^^ x ^^^ (a + x) % 256).testBit 4 = decide (15 < a % 16 + x % 16) := by
  have h := xor_testBit_carry a x 4
  have h2 : (a ^^^ x ^^^ (a + x) % 256).testBit 4 = (a ^^^ x ^^^ (a + x)).testBit 4 := by
    rw [Nat.testBit_xor, Nat.testBit_xor (x := a ^^^ x), show (256 : Nat) = 2 ^ 8 from rfl, Nat.testBit_mod_two_pow]
    simp
  rw [h2, h, Bool.eq_iff_iff]
  constructor
  · intro h; exact decide_eq_true (by have := of_decide_eq_true h; omega)
  · intro h; exact decide_eq_true (by have := of_decide_eq_true h; omega)

/-- Bit 12 of XOR is the carry out of the low twelve bits. -/
theorem halfCarry16 (a x : Nat) :
    (a ^^^ x ^^^ (a + x) % 65536).testBit 12 = decide (4095 < a % 4096 + x % 4096) := by
  have h := xor_testBit_carry a x 12
  have h2 : (a ^^^ x ^^^ (a + x) % 65536).testBit 12 = (a ^^^ x ^^^ (a + x)).testBit 12 := by
    rw [Nat.testBit_xor, Nat.testBit_xor (x := a ^^^ x), show (65536 : Nat) = 2 ^ 16 from rfl,
      Nat.testBit_mod_two_pow]
    simp
  rw [h2, h, Bool.eq_iff_iff]
  constructor
  · intro h; exact decide_eq_true (by have := of_decide_eq_true h; omega)
  · intro h; exact decide_eq_true (by have := of_decide_eq_true h; omega)

theorem add8_eq (a : Byte) (x : Nat) :
    add8 a x = (a + BitVec.ofNat 8 x, pack (decide (a + BitVec.ofNat 8 x = 0)) false
      (decide (15 < a.toNat % 16 + x % 16)) (decide (256 ≤ a.toNat + x))) := by
  have h := add8_result a x
  change BitVec.ofNat 8 (a.toNat + x) = _ at h
  have h4 := halfCarry8 a.toNat x
  simp only [add8, beq_zero, ← h, BitVec.toNat_ofNat]
  exact congrArg (fun b => (BitVec.ofNat 8 (a.toNat + x), pack _ false b _)) h4

theorem adc8_eq (a x f : Byte) :
    adc8 a x f = (a + x + BitVec.ofNat 8 (carryOf f).toNat,
      pack (decide (a + x + BitVec.ofNat 8 (carryOf f).toNat = 0)) false
        (decide (15 < a.toNat % 16 + (x.toNat + (carryOf f).toNat) % 16))
        (decide (256 ≤ a.toNat + x.toNat + (carryOf f).toNat))) := by
  have h : a + BitVec.ofNat 8 (x.toNat + (carryOf f).toNat) = a + x + BitVec.ofNat 8 (carryOf f).toNat := by
    rw [BitVec.ofNat_add, BitVec.ofNat_toNat, BitVec.setWidth_eq, BitVec.add_assoc]
  rw [adc8, add8_eq, h, ← Nat.add_assoc]

theorem sub8_eq (a : Byte) (x : Nat) :
    sub8 a x = (a - BitVec.ofNat 8 x, pack (decide (a - BitVec.ofNat 8 x = 0)) true
      (decide (a.toNat % 16 < x % 16)) (decide (a.toNat < x))) := by
  have h := sub8_result a x
  change BitVec.ofInt 8 ((a.toNat : Int) - x) = _ at h
  have h4 : decide (((a.toNat % 16 : Nat) : Int) - ((x % 16 : Nat) : Int) < 0) = decide (a.toNat % 16 < x % 16) := by
    rw [decide_eq_decide]; omega
  have h8 : decide ((a.toNat : Int) - x < 0) = decide (a.toNat < x) := by rw [decide_eq_decide]; omega
  simp only [sub8, h, beq_zero, h4, h8]

theorem sbc8_eq (a x f : Byte) :
    sbc8 a x f = (a - x - BitVec.ofNat 8 (carryOf f).toNat,
      pack (decide (a - x - BitVec.ofNat 8 (carryOf f).toNat = 0)) true
        (decide (a.toNat % 16 < (x.toNat + (carryOf f).toNat) % 16))
        (decide (a.toNat < x.toNat + (carryOf f).toNat))) := by
  have h : a - BitVec.ofNat 8 (x.toNat + (carryOf f).toNat) = a - x - BitVec.ofNat 8 (carryOf f).toNat := by
    rw [BitVec.ofNat_add, BitVec.ofNat_toNat, BitVec.setWidth_eq]; ring
  rw [sbc8, sub8_eq, h]

theorem add16_eq (hl x : Word) (f : Byte) :
    add16 hl x f = (hl + x, pack (zeroOf f) false (decide (4095 < hl.toNat % 4096 + x.toNat % 4096))
      (decide (65536 ≤ hl.toNat + x.toNat))) := by
  have h : BitVec.ofNat 16 (hl.toNat + x.toNat) = hl + x := by
    apply BitVec.eq_of_toNat_eq; simp
  have h4 := halfCarry16 hl.toNat x.toNat
  simp only [add16, ← h, BitVec.toNat_ofNat]
  exact congrArg (fun b => (BitVec.ofNat 16 (hl.toNat + x.toNat), pack _ false b _)) h4

theorem inc8_eq (x f : Byte) :
    inc8 x f = (x + 1, pack (decide (x + 1 = 0)) false (decide (x.toNat % 16 = 15)) (carryOf f)) := by
  have h : BitVec.ofNat 8 (x.toNat + 1) = x + 1 := by
    apply BitVec.eq_of_toNat_eq; simp
  simp only [inc8, h, beq_zero]

theorem dec8_eq (x f : Byte) :
    dec8 x f = (x - 1, pack (decide (x = 1)) true (decide (x.toNat % 16 = 0)) (carryOf f)) := by
  have h : BitVec.ofInt 8 ((x.toNat : Int) - 1) = x - 1 := sub8_result x 1
  simp only [dec8, h, beq_zero, sub_eq_zero_decide]

end Sys2Proof.Machine
end

