-- ==== Sys2Proof/Laws/Memory.lean ====
section
/-! SUPPORT. Memory: reads after writes, what a write leaves alone, and that every operation keeps the canonical form. -/

namespace Sys2Proof.Machine

/-- In a canonical memory nothing is listed below its lowest admissible address. -/
theorem read_eq_fresh_of_lt {m : Memory} {lo addr : Nat} (hm : Memory.wfFrom lo m = true) (h : addr < lo) :
    m.read addr = Config.freshByte := by
  induction m generalizing lo with
  | nil => rfl
  | cons e rest ih =>
    obtain ⟨k, b⟩ := e
    simp only [Memory.wfFrom, Bool.and_eq_true, decide_eq_true_eq] at hm
    have hne : addr ≠ k := by omega
    simp only [Memory.read, hne, if_false]
    exact ih hm.2 (by omega)

/-- The canonical form survives a lower starting address. -/
theorem wfFrom_mono {m : Memory} {lo lo' : Nat} (hm : Memory.wfFrom lo m = true) (h : lo' ≤ lo) :
    Memory.wfFrom lo' m = true := by
  cases m with
  | nil => rfl
  | cons e rest =>
    obtain ⟨k, b⟩ := e
    simp only [Memory.wfFrom, Bool.and_eq_true, decide_eq_true_eq] at hm ⊢
    exact ⟨⟨⟨by omega, hm.1.1.2⟩, hm.1.2⟩, hm.2⟩

theorem wfFrom_write {m : Memory} {lo addr : Nat} (v : Byte) (hm : Memory.wfFrom lo m = true) (hlo : lo ≤ addr)
    (hhi : addr < 0x10000) : Memory.wfFrom lo (m.write addr v) = true := by
  induction m generalizing lo with
  | nil =>
    by_cases hv : v = Config.freshByte <;> simp [Memory.write, hv, Memory.wfFrom, hlo]
    omega
  | cons e rest ih =>
    obtain ⟨k, b⟩ := e
    have hm' := hm
    simp only [Memory.wfFrom, Bool.and_eq_true, decide_eq_true_eq] at hm
    obtain ⟨⟨⟨h1, h2⟩, h3⟩, h4⟩ := hm
    unfold Memory.write
    split
    · split
      · exact hm'
      · rename_i hv
        simp only [Memory.wfFrom, Bool.and_eq_true, decide_eq_true_eq]
        exact ⟨⟨⟨hlo, hhi⟩, hv⟩, ⟨⟨by omega, h2⟩, h3⟩, h4⟩
    · split
      · split
        · exact wfFrom_mono h4 (by omega)
        · rename_i hk hv
          simp only [Memory.wfFrom, Bool.and_eq_true, decide_eq_true_eq]
          exact ⟨⟨⟨hlo, hhi⟩, hv⟩, hk ▸ h4⟩
      · simp only [Memory.wfFrom, Bool.and_eq_true, decide_eq_true_eq]
        exact ⟨⟨⟨h1, h2⟩, h3⟩, ih h4 (by omega)⟩

/-- A byte write inside the address space keeps the canonical form. -/
theorem wf_write {m : Memory} {addr : Nat} (v : Byte) (hm : m.wf = true) (h : addr < 0x10000) :
    (m.write addr v).wf = true := wfFrom_write v hm (Nat.zero_le _) h

/-- A little-endian write inside the address space keeps the canonical form. -/
theorem wf_writeLE {m : Memory} {addr n : Nat} (v : Nat) (hm : m.wf = true) (h : addr + n ≤ 0x10000) :
    (m.writeLE addr n v).wf = true := by
  induction n generalizing m addr v with
  | zero => exact hm
  | succ n ih => exact ih _ (wf_write _ hm (by omega)) (by omega)

/-- The bound of an access as arithmetic. -/
theorem inBounds_iff (addr : Int) (w : Width) :
    inBounds addr w = true ↔ 0 ≤ addr ∧ addr.toNat + widthBytes w ≤ 0x10000 := by
  simp only [inBounds, Bool.and_eq_true, decide_eq_true_eq]

/-- What `MemWrite` can do: inside the bound it is the little-endian write, outside it nothing. -/
theorem memWrite_eq_some {m m' : Memory} {addr : Int} {w : Width} {v : Nat} (h : memWrite m addr w v = some m') :
    inBounds addr w = true ∧ m' = m.writeLE addr.toNat (widthBytes w) v := by
  unfold memWrite at h
  split at h
  · rename_i hb; exact ⟨hb, by simpa using h.symm⟩
  · cases h

/-- `MemWrite` keeps the canonical form. -/
theorem wf_memWrite {m m' : Memory} {addr : Int} {w : Width} {v : Nat} (hm : m.wf = true)
    (h : memWrite m addr w v = some m') : m'.wf = true := by
  obtain ⟨hb, rfl⟩ := memWrite_eq_some h
  exact wf_writeLE _ hm ((inBounds_iff _ _).1 hb).2

theorem read_write_self_from {m : Memory} {lo addr : Nat} (v : Byte) (hm : Memory.wfFrom lo m = true) :
    (m.write addr v).read addr = v := by
  induction m generalizing lo with
  | nil => by_cases hv : v = Config.freshByte <;> simp [Memory.write, Memory.read, hv]
  | cons e rest ih =>
    obtain ⟨k, b⟩ := e
    simp only [Memory.wfFrom, Bool.and_eq_true, decide_eq_true_eq] at hm
    unfold Memory.write
    split
    · rename_i hk
      split
      · rename_i hv
        have hne : addr ≠ k := by omega
        simp only [Memory.read, hne, if_false, hv]
        exact read_eq_fresh_of_lt hm.2 (by omega)
      · simp [Memory.read]
    · split
      · rename_i hk
        split
        · rename_i hv
          rw [hv]
          exact read_eq_fresh_of_lt hm.2 (by omega)
        · simp [Memory.read]
      · rename_i hk
        simp only [Memory.read, hk, if_false]
        exact ih hm.2

/-- A read of the address just written gives the value written. -/
theorem read_write_self {m : Memory} (addr : Nat) (v : Byte) (hm : m.wf = true) : (m.write addr v).read addr = v :=
  read_write_self_from v hm

/-- A write leaves every other address alone. -/
theorem read_write_of_ne (m : Memory) {addr q : Nat} (v : Byte) (h : q ≠ addr) :
    (m.write addr v).read q = m.read q := by
  induction m with
  | nil => by_cases hv : v = Config.freshByte <;> simp [Memory.write, Memory.read, hv, h]
  | cons e rest ih =>
    obtain ⟨k, b⟩ := e
    unfold Memory.write
    split
    · split
      · rfl
      · simp [Memory.read, h]
    · split
      · rename_i hk
        subst hk
        split <;> simp [Memory.read, h]
      · simp [Memory.read, ih]

/-- A little-endian write leaves every byte outside it alone. -/
theorem read_writeLE_of_outside (m : Memory) {addr n q : Nat} (v : Nat) (h : q < addr ∨ addr + n ≤ q) :
    (m.writeLE addr n v).read q = m.read q := by
  induction n generalizing m addr v with
  | zero => rfl
  | succ n ih =>
    show ((m.write addr (BitVec.ofNat 8 v)).writeLE (addr + 1) n (v / 256)).read q = m.read q
    rw [ih _ _ (by omega), read_write_of_ne _ _ (by omega)]

/-- Byte `i` of a little-endian write. -/
theorem read_writeLE_byte {m : Memory} {addr n : Nat} (v : Nat) (hm : m.wf = true) (h : addr + n ≤ 0x10000) (i : Nat)
    (hi : i < n) : (m.writeLE addr n v).read (addr + i) = BitVec.ofNat 8 (v / 256 ^ i) := by
  induction n generalizing m addr v i with
  | zero => omega
  | succ n ih =>
    show ((m.write addr (BitVec.ofNat 8 v)).writeLE (addr + 1) n (v / 256)).read (addr + i) = _
    have hw : (m.write addr (BitVec.ofNat 8 v)).wf = true := wf_write _ hm (by omega)
    cases i with
    | zero =>
      rw [read_writeLE_of_outside _ _ (by omega)]
      simpa using read_write_self addr (BitVec.ofNat 8 v) hm
    | succ i =>
      have := ih (addr := addr + 1) (v / 256) hw (by omega) i (by omega)
      rw [show addr + (i + 1) = addr + 1 + i by omega, this, Nat.div_div_eq_div_mul, Nat.pow_succ, Nat.mul_comm]

/-- A little-endian value depends only on the bytes it covers. -/
theorem readLE_congr {m m' : Memory} {addr n : Nat} (h : ∀ q, addr ≤ q → q < addr + n → m'.read q = m.read q) :
    m'.readLE addr n = m.readLE addr n := by
  induction n generalizing addr with
  | zero => rfl
  | succ n ih =>
    simp only [Memory.readLE]
    rw [h addr (by omega) (by omega), ih fun q h1 h2 => h q (by omega) (by omega)]

/-- A little-endian read returns what a little-endian write stored. -/
theorem readLE_writeLE {m : Memory} {addr n : Nat} (v : Nat) (hm : m.wf = true) (h : addr + n ≤ 0x10000) :
    (m.writeLE addr n v).readLE addr n = v % 256 ^ n := by
  induction n generalizing m addr v with
  | zero => simp [Memory.readLE, Nat.mod_one]
  | succ n ih =>
    have hw : (m.write addr (BitVec.ofNat 8 v)).wf = true := wf_write _ hm (by omega)
    show (((m.write addr (BitVec.ofNat 8 v)).writeLE (addr + 1) n (v / 256)).read addr).toNat +
      256 * ((m.write addr (BitVec.ofNat 8 v)).writeLE (addr + 1) n (v / 256)).readLE (addr + 1) n = _
    rw [ih _ hw (by omega), read_writeLE_of_outside _ _ (by omega), read_write_self _ _ hm, BitVec.toNat_ofNat,
      Nat.pow_succ' (m := 256), Nat.mod_mul]

/-- A little-endian value fits its bytes. -/
theorem readLE_lt (m : Memory) (addr n : Nat) : m.readLE addr n < 256 ^ n := by
  induction n generalizing addr with
  | zero => simp [Memory.readLE]
  | succ n ih =>
    simp only [Memory.readLE]
    have h1 := (m.read addr).isLt
    have h2 := ih (addr + 1)
    rw [Nat.pow_succ]
    omega

/-- Inside the bound `MemRead` is the little-endian read. -/
theorem memRead_of_inBounds {m : Memory} {addr : Int} {w : Width} (h : inBounds addr w = true) :
    memRead m addr w = some (m.readLE addr.toNat (widthBytes w)) := by simp [memRead, h]

/-- Outside the bound `MemRead` fails. -/
theorem memRead_of_not_inBounds {m : Memory} {addr : Int} {w : Width} (h : inBounds addr w = false) :
    memRead m addr w = none := by simp [memRead, h]

/-- Inside the bound `MemWrite` is the little-endian write. -/
theorem memWrite_of_inBounds {m : Memory} {addr : Int} {w : Width} {v : Nat} (h : inBounds addr w = true) :
    memWrite m addr w v = some (m.writeLE addr.toNat (widthBytes w) v) := by simp [memWrite, h]

/-- Outside the bound `MemWrite` fails. -/
theorem memWrite_of_not_inBounds {m : Memory} {addr : Int} {w : Width} {v : Nat} (h : inBounds addr w = false) :
    memWrite m addr w v = none := by simp [memWrite, h]

end Sys2Proof.Machine
end

