-- ==== Sys2Proof/Laws/Ops.lean ====
section
/-! SUPPORT. One lemma for each shared operation that says once what it does. -/

namespace Sys2Proof.Machine

theorem complete_eq (out : Output) (s : State) : complete out s = .next (s.answered (.success out)) := rfl

theorem raise_eq (e : CmdError) (s : State) : raise e s = .next (s.answered (.error e)) := rfl

/-- A one-byte access at HL is always in bounds. -/
theorem inBounds_hl (s : State) : inBounds (hlAddr s) .byte = true := by
  have := (s.reg16 .hl).isLt
  simp only [inBounds_iff, hlAddr, widthBytes, Int.toNat_natCast]
  omega

/-- An access through HL goes on with the byte at HL; it never errs. -/
theorem withInd_eq (k : Byte → State → Host.Outcome State Fault Refusal) (s : State) :
    withInd k s = k (s.mem.read (s.reg16 .hl).toNat) s := by
  unfold withInd
  rw [memRead_of_inBounds (inBounds_hl s)]
  simp [widthBytes, Memory.readLE, hlAddr]

/-- A store through HL writes the one byte at HL and goes on; it never errs. -/
theorem storeInd_eq (v : Byte) (k : State → Host.Outcome State Fault Refusal) (s : State) :
    storeInd v k s = k (s.setMem (s.mem.write (s.reg16 .hl).toNat v)) := by
  unfold storeInd
  rw [memWrite_of_inBounds (inBounds_hl s)]
  simp [widthBytes, Memory.writeLE, hlAddr]

theorem commitA_eq (x : Byte × Byte) (s : State) :
    commitA x s = .next (((s.setReg8 .a x.1).setReg8 .f x.2).answered (.success .none)) := rfl

theorem commitR8_eq (r : R8) (x : Byte × Byte) (s : State) :
    commitR8 r x s = .next (((s.setReg8 (r8Reg r) x.1).setReg8 .f x.2).answered (.success .none)) := rfl

/-- A word at an address is in bounds exactly when the address is not 0xFFFF. -/
theorem inBounds_word (v : Word) : inBounds v.toNat .word = true ↔ v ≠ 0xFFFF := by
  have := v.isLt
  simp only [inBounds_iff, widthBytes, ne_eq, ← BitVec.toNat_inj, Int.toNat_natCast]
  show _ ↔ ¬v.toNat = 65535
  omega

/-- The word `push` stores is out of bounds exactly when SP is 1. -/
theorem pushAddr_eq_top (s : State) : pushAddr s = 0xFFFF ↔ s.reg16 .sp = 1 := by
  unfold pushAddr
  constructor
  · intro h
    have : s.reg16 .sp = 0xFFFF + 2 := by rw [← h]; simp
    simpa using this
  · intro h
    rw [h]
    rfl

/-- `push` with SP not 1. -/
theorem execPush_of_ne (rr : R16) (s : State) (h : s.reg16 .sp ≠ 1) :
    execPush rr s = complete .none
      ((s.setMem (s.mem.writeLE (pushAddr s).toNat 2 (valR16 s rr).toNat)).setReg16 .sp (pushAddr s)) := by
  have hb : inBounds (pushAddr s).toNat .word = true :=
    (inBounds_word _).2 fun hc => h ((pushAddr_eq_top s).1 hc)
  unfold execPush
  rw [memWrite_of_inBounds hb]
  rfl

/-- `push` with SP at 1. -/
theorem execPush_of_eq (rr : R16) (s : State) (h : s.reg16 .sp = 1) : execPush rr s = raise .range s := by
  have hb : inBounds (pushAddr s).toNat .word = false := by
    have := (not_congr (inBounds_word (pushAddr s))).2 (by simp [(pushAddr_eq_top s).2 h])
    simpa using this
  unfold execPush
  rw [memWrite_of_not_inBounds hb]

/-- `pop` with SP not 0xFFFF. -/
theorem execPop_of_ne (rr : R16) (s : State) (h : s.reg16 .sp ≠ 0xFFFF) :
    execPop rr s = complete .none
      ((s.setReg16 (r16Reg rr) (BitVec.ofNat 16 (s.mem.readLE (s.reg16 .sp).toNat 2))).setReg16 .sp (popSp s)) := by
  unfold execPop
  rw [memRead_of_inBounds ((inBounds_word _).2 h)]
  rfl

/-- `pop` with SP at 0xFFFF. -/
theorem execPop_of_eq (rr : R16) (s : State) (h : s.reg16 .sp = 0xFFFF) : execPop rr s = raise .range s := by
  have hb : inBounds (s.reg16 .sp).toNat .word = false := by
    have := (not_congr (inBounds_word (s.reg16 .sp))).2 (by simp [h])
    simpa using this
  unfold execPop
  rw [memRead_of_not_inBounds hb]

/-- `r/N`: what it shows, or its error; the state is kept either way. -/
theorem examine_eq (w : Width) (addr : Int) (s : State) :
    examine w addr s =
      if inBounds addr w then complete (.text (hexText w (s.mem.readLE addr.toNat (widthBytes w)))) s
      else raise .range s := by
  unfold examine memRead
  split <;> simp_all

end Sys2Proof.Machine
end

