-- ==== Sys2Proof/Laws/Effects.lean ====
section
/-! SUPPORT. What a commit of a kernel result does, in the terms of Safety: the effect and the frame at once. -/

namespace Sys2Proof.Machine

/-- A write of an operand register and then of F keeps every register but these two. -/
theorem keepsRegs_commit (s : State) (r : Reg8) (v f : Byte) (x : Answer) :
    KeepsRegs s (((s.setReg8 r v).setReg8 .f f).answered x) [r, .f] := by
  intro q hq
  simp at hq
  simp [reg8_setReg8, hq]

/-- 8-bit writes keep PC and SP. -/
theorem keepsPairs_commit (s : State) (r q : Reg8) (v f : Byte) (x : Answer) :
    KeepsPairs s (((s.setReg8 r v).setReg8 q f).answered x) [.pc, .sp] := by
  intro rr h
  simp at h
  rcases h with rfl | rfl <;> simp

theorem hasFlags_commit (s : State) (z n h c : Bool) (x : Answer) :
    HasFlags ((s.setReg8 .f (pack z n h c)).answered x) z n h c := by
  simp [HasFlags, State.flag]

/-- An instruction that commits a kernel result to A has the accumulator effect. -/
theorem accEffect_of_commit {i : Instr} {s : State} {result : Byte} {z n h c : Bool}
    (he : exec i s = commitA (result, pack z n h c) s) : AccEffect i s result z n h c :=
  ⟨_, ⟨he.trans (commitA_eq _ _), rfl⟩, by simp, hasFlags_commit _ _ _ _ _ _, keepsRegs_commit _ _ _ _ _,
    keepsPairs_commit _ _ _ _ _ _, fun _ => rfl, rfl, rfl⟩

/-- An instruction that commits a kernel result to an operand register has the register effect. -/
theorem regEffect_of_commit {i : Instr} {s : State} {r : R8} {result : Byte} {z n h c : Bool}
    (he : exec i s = commitR8 r (result, pack z n h c) s) : RegEffect i s r result z n h c :=
  ⟨_, ⟨he.trans (commitR8_eq _ _ _), rfl⟩, by simp, hasFlags_commit _ _ _ _ _ _, keepsRegs_commit _ _ _ _ _,
    keepsPairs_commit _ _ _ _ _ _, fun _ => rfl, rfl, rfl⟩

/-- An instruction that writes one operand register and answers has the load effect. -/
theorem loadEffect_of_complete {i : Instr} {s : State} {dst : R8} {v : Byte}
    (he : exec i s = complete .none (s.setReg8 (r8Reg dst) v)) : LoadEffect i s dst v :=
  ⟨_, ⟨he.trans (complete_eq _ _), rfl⟩, by simp,
    fun q hq => by simp at hq; simp [reg8_setReg8, hq],
    fun rr h => by simp at h; rcases h with rfl | rfl <;> simp, fun _ => rfl, rfl, rfl⟩

/-- An instruction that writes SP and answers has that effect. -/
theorem loadSpEffect_of_complete {i : Instr} {s : State} {v : Word}
    (he : exec i s = complete .none (s.setReg16 .sp v)) : LoadSpEffect i s v :=
  ⟨_, ⟨he.trans (complete_eq _ _), rfl⟩, by simp, fun q _ => by simp,
    fun rr h => by simp at h; subst h; simp [reg16_setReg16], fun _ => rfl, rfl, rfl⟩

/-- `leValue` is the little-endian read. -/
theorem readLE_eq_leValue (m : Memory) (addr : Nat) (w : Width) : m.readLE addr (widthBytes w) = leValue m addr w := by
  cases w <;> simp [widthBytes, Memory.readLE, leValue, Nat.add_assoc]
  omega

/-- The digits of a value are its digits one by one. -/
theorem hexDigits_eq_hexMarks (n v : Nat) : hexDigits n v = hexMarks n v := by
  induction n generalizing v with
  | zero => rfl
  | succ n ih =>
    rw [hexDigits, ih]
    simp only [hexMarks, List.range_succ, List.map_append, List.map_cons, List.map_nil]
    congr 1
    · apply List.map_congr_left
      intro k hk
      simp only [List.mem_range] at hk
      rw [Nat.div_div_eq_div_mul, show n + 1 - 1 - k = (n - 1 - k) + 1 by omega, Nat.pow_succ, Nat.mul_comm]
    · simp

end Sys2Proof.Machine
end

