-- ==== Sys2Proof/Laws/Exec.lean ====
section
/-! SUPPORT. What the shared ways to end an instruction can do: they answer, keep the instance and the host's queue, keep
the canonical form, PC and a zero low nibble of F, and an error changes nothing. -/

namespace Sys2Proof.Machine

/-- An outcome that keeps what every instruction keeps. -/
def Tame (s : State) (o : Host.Outcome State Fault Refusal) : Prop :=
  ∃ t x, o = .next t ∧ t.answer = some x ∧ KeepsHost s t ∧ (s.Inv → t.Inv) ∧ t.reg16 .pc = s.reg16 .pc ∧
    ((s.reg8 .f).toNat % 16 = 0 → (t.reg8 .f).toNat % 16 = 0) ∧ ∀ e, x = .error e → SameBut s t

theorem tame_raise (e : CmdError) (s : State) : Tame s (raise e s) :=
  ⟨_, _, rfl, rfl, ⟨rfl, rfl⟩, id, rfl, id, fun _ _ => ⟨rfl, rfl, rfl, rfl⟩⟩

theorem tame_complete (out : Output) {s t : State} (hh : KeepsHost s t) (hi : s.Inv → t.Inv)
    (hp : t.reg16 .pc = s.reg16 .pc) (hf : (s.reg8 .f).toNat % 16 = 0 → (t.reg8 .f).toNat % 16 = 0) :
    Tame s (complete out t) :=
  ⟨_, _, rfl, rfl, hh, hi, hp, hf, fun _ h => by cases h⟩

theorem tame_commitA (s : State) (x : Byte × Byte) (h : (s.reg8 .f).toNat % 16 = 0 → x.2.toNat % 16 = 0) :
    Tame s (commitA x s) :=
  tame_complete _ (s := s) ⟨rfl, rfl⟩ id (by simp) (by simpa using h)

theorem tame_commitR8 (s : State) (r : R8) (x : Byte × Byte) (h : (s.reg8 .f).toNat % 16 = 0 → x.2.toNat % 16 = 0) :
    Tame s (commitR8 r x s) :=
  tame_complete _ (s := s) ⟨rfl, rfl⟩ id (by simp) (by simpa using h)

/-- A write of an operand register. -/
theorem tame_setR8 (s : State) (r : R8) (v : Byte) : Tame s (complete .none (s.setReg8 (r8Reg r) v)) :=
  tame_complete _ (s := s) ⟨rfl, rfl⟩ id (by simp) (by rw [reg8_setReg8_of_ne _ _ (f_ne_r8Reg r)]; exact id)

theorem tame_withInd (s : State) (k : Byte → State → Host.Outcome State Fault Refusal) (h : ∀ v, Tame s (k v s)) :
    Tame s (withInd k s) := by
  rw [withInd_eq]; exact h _

theorem tame_storeInd (s : State) (v : Byte) (k : State → Host.Outcome State Fault Refusal)
    (h : ∀ m, (s.Inv → m.wf = true) → Tame s (k (s.setMem m))) : Tame s (storeInd v k s) := by
  have hb : (s.reg16 .hl).toNat < 0x10000 := (s.reg16 .hl).isLt
  rw [storeInd_eq]
  exact h _ fun hi => wf_write _ hi hb

theorem tame_examine (w : Width) (addr : Int) (s : State) : Tame s (examine w addr s) := by
  rw [examine_eq]
  split
  · exact tame_complete _ ⟨rfl, rfl⟩ id rfl id
  · exact tame_raise _ _

theorem tame_dump (w : Width) (offset count : Int) (s : State) : Tame s (dump w offset count s) := by
  unfold dump
  split
  · exact tame_raise _ _
  · exact tame_complete _ ⟨rfl, rfl⟩ id rfl id

/-- Where `push` stores is in bounds when SP is not 1. -/
theorem pushAddr_bound (s : State) (h : s.reg16 .sp ≠ 1) : (pushAddr s).toNat + 2 ≤ 0x10000 := by
  have h1 := (pushAddr s).isLt
  have h2 : pushAddr s ≠ 0xFFFF := fun h2 => h ((pushAddr_eq_top s).1 h2)
  have h3 : (pushAddr s).toNat ≠ 65535 := fun h3 => h2 (BitVec.eq_of_toNat_eq h3)
  omega

/-- The byte `cpl` leaves in F keeps a zero low nibble. -/
theorem cpl_low : ∀ f : Byte, f.toNat % 16 = 0 → (f ||| 0x60).toNat % 16 = 0 := by decide +kernel

end Sys2Proof.Machine
end

