-- ==== Sys2Proof/Laws/Step.lean ====
section
/-! SUPPORT. The step by the kind of the request it serves. -/

namespace Sys2Proof.Machine

theorem step_idle (s : State) (h : s.pending = []) : step s = .next s := by simp [step, serveNext, h]

theorem step_serve (s : State) (x : Request) (rest : List Request) (h : s.pending = x :: rest) :
    step s = serve x { s with pending := rest } := by simp [step, serveNext, h]

theorem runCommand_error (c : Command) (s : State) (e : CmdError) (h : decodeCommand s.params c = .error e) :
    runCommand c s = raise e s := by simp [runCommand, h]

theorem runCommand_ok (c : Command) (s : State) (i : Instr) (h : decodeCommand s.params c = .ok i)
    (ha : formAdopted s.params i = true) : runCommand c s = exec i s := by simp [runCommand, h, ha]

theorem runCommand_refused (c : Command) (s : State) (i : Instr) (h : decodeCommand s.params c = .ok i)
    (ha : formAdopted s.params i = false) : runCommand c s = .refused .formNotAdopted := by simp [runCommand, h, ha]

theorem runLine_blank (t : Text) (s : State) (h : splitLine t = none) : runLine t s = complete .none s := by
  simp [runLine, h]

theorem runLine_command (t : Text) (s : State) (c : Command) (h : splitLine t = some c) :
    runLine t s = runCommand c s := by simp [runLine, h]

end Sys2Proof.Machine
end

