-- ==== Sys2Proof/Tests/Slice0.lean ====
section
/-! SUPPORT. Tests of the model, and a witness for the hypotheses of every statement. Expected values come from
spec/95_test_vectors.md, the words of the byte tests from the opcode map of spec R82. -/

namespace Sys2Proof.Tests

open Sys2Proof.Machine

/-! ## Helpers -/

/-- A state with these pairs and this memory, all else as after reset. -/
def st (af bc de hl sp : Word) (mem : Memory := []) : State :=
  { State.reset with
    regs := ⟨hiByte af, loByte af, hiByte bc, loByte bc, hiByte de, loByte de, hiByte hl, loByte hl, 0, 0,
      hiByte sp, loByte sp⟩,
    mem := mem }

/-- The same state on an instance with `EXT_OPS`. -/
def ext (s : State) : State := { s with params := ⟨true, true⟩ }

/-- The same state on an instance with `INFERRED_FORMS = false`. -/
def cautious (s : State) : State := { s with params := ⟨false, false⟩ }

/-- A command from strings. -/
def cmd (m : String) (ops : List String) : Command := ⟨m.toList, ops.map String.toList⟩

/-- The state with one line presented. -/
def withLine (t : String) (s : State) : State := { s with pending := [.line t.toList] }

/-- One step on a line gives the next state, with a success that outputs nothing. -/
def gives (s : State) (t : String) (u : State) : Bool :=
  match step (withLine t s) with
  | .next v => decide (v = u.answered (.success .none))
  | _ => false

/-- One step on a line gives the same state, with this output. -/
def shows (s : State) (t : String) (out : Output) : Bool :=
  match step (withLine t s) with
  | .next v => decide (v = s.answered (.success out))
  | _ => false

/-- One step on a line gives the same state, with this error. -/
def errs (s : State) (t : String) (e : CmdError) : Bool :=
  match step (withLine t s) with
  | .next v => decide (v = s.answered (.error e))
  | _ => false

/-- One step on a line is refused as a form this instance does not adopt. -/
def refuses (s : State) (t : String) : Bool :=
  match step (withLine t s) with
  | .refused .formNotAdopted => true
  | _ => false

/-- A port call gives this state and this answer. -/
def portGives (s : State) (call : PortCall) (u : State) (x : Answer) : Bool :=
  match portCall call s with
  | .next v => decide (v = u.answered x)
  | _ => false

/-- These bytes decode to this instruction and nothing is left. -/
def decodesTo (bs : List Byte) (i : Instr) : Bool := decide (decode bs = some (i, []))

/-! ## Well-formedness: an ill-formed term for each check, and the bounds that pass -/

theorem test_wf_refuses_literals_out_of_range :
    ([.p (.lit 65536), .p (.lit (-32769)), .print (.lit 65536), .print (.lit (-32769))] : List Instr).all
      (fun i => !i.wf) = true := by decide

theorem test_wf_refuses_addresses_out_of_range :
    ([.r1 65536, .r1 (-32769), .r2 65536, .r2 (-32769), .r4 65536, .r4 (-32769)] : List Instr).all
      (fun i => !i.wf) = true := by decide

theorem test_wf_refuses_offsets_and_counts_out_of_range :
    ([.x1 65536 0, .x1 0 65536, .x2 (-32769) 0, .x2 0 65536, .x4 65536 0, .x4 0 (-32769)] : List Instr).all
      (fun i => !i.wf) = true := by decide

theorem test_wf_accepts_the_bounds :
    ([.p (.lit 65535), .print (.lit (-32768)), .r1 65535, .r2 (-32768), .r4 0, .x1 65535 65535, .x2 (-32768) 0,
      .x4 0 65535, .addN8 0xFF, .ldSpN16 0xFFFF] : List Instr).all (fun i => i.wf) = true := by decide

/-! ## Bytes, written out bit by bit from the opcode map of R82 -/

theorem test_bytes_accumulator_immediate :
    (decodesTo [0b11000110, 0x3A] (.addN8 0x3A) && decodesTo [0b11001110, 0x3A] (.adcN8 0x3A)
      && decodesTo [0b11010110, 0x3A] (.subN8 0x3A) && decodesTo [0b11011110, 0x3A] (.sbcN8 0x3A)
      && decodesTo [0b11100110, 0x3A] (.andN8 0x3A) && decodesTo [0b11101110, 0x3A] (.xorN8 0x3A)
      && decodesTo [0b11110110, 0x3A] (.orN8 0x3A) && decodesTo [0b11111110, 0x3A] (.cpN8 0x3A)) = true := by
  decide

theorem test_bytes_accumulator_register :
    (decodesTo [0b10000000] (.addR8 .b) && decodesTo [0b10001001] (.adcR8 .c) && decodesTo [0b10010010] (.subR8 .d)
      && decodesTo [0b10011011] (.sbcR8 .e) && decodesTo [0b10100100] (.andR8 .h) && decodesTo [0b10101101] (.xorR8 .l)
      && decodesTo [0b10110111] (.orR8 .a) && decodesTo [0b10111000] (.cpR8 .b)) = true := by decide

theorem test_bytes_accumulator_memory :
    (decodesTo [0b10000110] .addInd && decodesTo [0b10001110] .adcInd && decodesTo [0b10010110] .subInd
      && decodesTo [0b10011110] .sbcInd && decodesTo [0b10100110] .andInd && decodesTo [0b10101110] .xorInd
      && decodesTo [0b10110110] .orInd && decodesTo [0b10111110] .cpInd) = true := by decide

theorem test_bytes_inc_dec_add16_misc :
    (decodesTo [0b00000100] (.incR8 .b) && decodesTo [0b00111100] (.incR8 .a) && decodesTo [0b00101101] (.decR8 .l)
      && decodesTo [0b00001001] (.addHl .bc) && decodesTo [0b00101001] (.addHl .hl) && decodesTo [0b00101111] .cpl
      && decodesTo [0b00001111] .rrca && decodesTo [0b00000000] .nop) = true := by decide

theorem test_bytes_rotates :
    (decodesTo [0xCB, 0b00000000] (.rlcR8 .b) && decodesTo [0xCB, 0b00001111] (.rrcR8 .a)
      && decodesTo [0xCB, 0b00100010] (.slaR8 .d) && decodesTo [0xCB, 0b00101011] (.sraR8 .e)
      && decodesTo [0xCB, 0b00110001] (.swapR8 .c) && decodesTo [0xCB, 0b00111100] (.srlR8 .h)) = true := by decide

theorem test_bytes_loads :
    (decodesTo [0b00000001, 0x34, 0x12] (.ldR16N16 .bc 0x1234) && decodesTo [0b00010001, 0, 0xF0] (.ldR16N16 .de 0xF000)
      && decodesTo [0b01110001] (.ldIndR8 .c) && decodesTo [0b01111000] (.ldR8R8 .a .b)
      && decodesTo [0b00010110, 0x3A] (.ldR8N8 .d 0x3A) && decodesTo [0b01011110] (.ldR8Ind .e)
      && decodesTo [0b00110110, 0x7F] (.ldIndN8 0x7F) && decodesTo [0b00100010] .ldHliA
      && decodesTo [0b00110010] .ldHldA && decodesTo [0b00101010] .ldAHli && decodesTo [0b00111010] .ldAHld
      && decodesTo [0b00110001, 0x00, 0xD0] (.ldSpN16 0xD000) && decodesTo [0b11111001] .ldSpHl
      && decodesTo [0b11000101] (.push .bc) && decodesTo [0b11100001] (.pop .hl)) = true := by decide

theorem test_bytes_refused :
    ([[], [0x76], [0xF5], [0xF1], [0x34], [0x10], [0xC3, 0, 0], [0xCB], [0xCB, 0x16], [0xCB, 0x06], [0x01, 0x34],
      [0xC6]] : List (List Byte)).all (fun bs => decide (decode bs = none)) = true := by decide

/-- The opcode table numbers `add A, n8` as 0xC6 in bits 15..8 and `swap B` as 0xCB30. -/
theorem test_table_words :
    decodeTableWord 16 0xC63A = some (.addN8 0x3A) ∧ decodeTableWord 16 0xCB30 = some (.swapR8 .b) ∧
      decodeTableWord 8 0x00 = some .nop ∧ decodeTableWord 24 0x013412 = some (.ldR16N16 .bc 0x1234) ∧
      decodeTableWord 8 0x76 = none := by decide

/-! ## Texts: the rows of spec/95_test_vectors.md sections 2.1 and 2.9 -/

theorem test_literals :
    classify "7".toList = .known [.u3, .e8, .n8, .n16] (.int 7) ∧
      classify "-0".toList = .known [.u3, .e8, .n8, .n16] (.int 0) ∧
      classify "%0000000000010011".toList = .known [.e8, .n8, .n16] (.int 19) ∧
      classify "-$10".toList = .known [.e8, .n8, .n16] (.int (-16)) ∧
      classify "-%10000".toList = .known [.e8, .n8, .n16] (.int (-16)) ∧
      classify "$c6".toList = .known [.n8, .n16] (.int 198) ∧
      ∀ x ∈ ["", "-", "%", "$", "-%", "-$"], classify x.toList = .unknown x.toList := by decide

theorem test_lines_split :
    splitLine "ADD A, $C6 ; comment".toList = some (cmd "ADD" ["A", "$C6"]) ∧
      splitLine "  nop".toList = some (cmd "nop" []) ∧ splitLine "; only".toList = none ∧
      splitLine "x/1 $C000,32".toList = some (cmd "x/1" ["$C000", "32"]) ∧ splitLine "  ".toList = none := by decide

theorem test_error_priority :
    ([("jp $100", .unknownMnemonic), ("foo AF", .unknownMnemonic), ("and B", .unknownMnemonic), ("nop FOO", .arity),
      ("inc AF, B", .arity), ("ld A", .arity), ("add", .arity), ("x/1 $C000", .arity),
      ("ld AF, [BC]", .unknownOperand "AF".toList), ("ld AF, 300", .unknownOperand "AF".toList),
      ("ld BC, 65536", .unknownOperand "65536".toList), ("INC $10", .kindMismatch), ("ld A, 300", .kindMismatch),
      ("add HL", .kindMismatch), ("r/1 A", .kindMismatch), ("r/2 $FFFF", .range), ("x/2 $FFFF, 1", .range),
      ("r/1 -1", .range)] : List (String × CmdError)).all (fun x => errs State.reset x.1 x.2) = true := by
  decide +kernel

/-! ## The kernel vectors of sections 2.3 to 2.5 -/

theorem test_add8_vectors :
    ([(0x3A, 0xC6, 0x00, 0xB0), (0x0F, 0x01, 0x10, 0x20), (0xF0, 0x10, 0x00, 0x90), (0xFF, 0xFF, 0xFE, 0x30),
      (0x12, 0x34, 0x46, 0x00)] : List (Byte × Nat × Byte × Byte)).all
      (fun v => add8 v.1 v.2.1 == (v.2.2.1, v.2.2.2)) = true := by decide

theorem test_adc8_vectors :
    ([(0x10, 0x20, 0x31, 0x00), (0x0F, 0x00, 0x10, 0x20), (0xE1, 0x0F, 0xF1, 0x00), (0x00, 0xFF, 0x00, 0x90),
      (0xFF, 0xFF, 0xFF, 0x10), (0x3A, 0xC5, 0x00, 0xB0)] : List (Byte × Byte × Byte × Byte)).all
      (fun v => adc8 v.1 v.2.1 0x10 == (v.2.2.1, v.2.2.2)) = true := by decide

theorem test_sub8_vectors :
    ([(0x3E, 0x3E, 0x00, 0xC0), (0x3E, 0x0F, 0x2F, 0x60), (0x3E, 0x40, 0xFE, 0x50), (0x00, 0x01, 0xFF, 0x70),
      (0x80, 0x01, 0x7F, 0x60)] : List (Byte × Nat × Byte × Byte)).all
      (fun v => sub8 v.1 v.2.1 == (v.2.2.1, v.2.2.2)) = true := by decide

theorem test_sbc8_vectors :
    ([(0x3B, 0x2A, 0x10, 0x40), (0x3B, 0x4F, 0xEB, 0x50), (0x10, 0x0F, 0x00, 0xC0), (0x00, 0xFF, 0x00, 0xD0),
      (0x00, 0x00, 0xFF, 0x70)] : List (Byte × Byte × Byte × Byte)).all
      (fun v => sbc8 v.1 v.2.1 0x10 == (v.2.2.1, v.2.2.2)) = true := by decide

theorem test_add16_vectors :
    ([(0x0FFF, 0x0001, 0x80, 0x1000, 0xA0), (0x1000, 0xF000, 0xA0, 0x0000, 0x90), (0xFFFF, 0x0001, 0x00, 0x0000, 0x30),
      (0x8A23, 0x8A23, 0xF0, 0x1446, 0xB0), (0x00FF, 0x0001, 0x40, 0x0100, 0x00)] :
        List (Word × Word × Byte × Word × Byte)).all
      (fun v => add16 v.1 v.2.1 v.2.2.1 == (v.2.2.2.1, v.2.2.2.2)) = true := by decide

theorem test_inc8_dec8_vectors :
    (([(0x0F, 0x00, 0x10, 0x20), (0xFF, 0x00, 0x00, 0xA0), (0xFF, 0x10, 0x00, 0xB0), (0x4F, 0xF0, 0x50, 0x30)] :
        List (Byte × Byte × Byte × Byte)).all (fun v => inc8 v.1 v.2.1 == (v.2.2.1, v.2.2.2))
      && ([(0x01, 0x00, 0x00, 0xC0), (0x00, 0x10, 0xFF, 0x70), (0x10, 0x10, 0x0F, 0x70), (0x01, 0xF0, 0x00, 0xD0)] :
        List (Byte × Byte × Byte × Byte)).all (fun v => dec8 v.1 v.2.1 == (v.2.2.1, v.2.2.2))) = true := by decide

theorem test_logic_vectors :
    xor8 0xFF 0x0F = (0xF0, 0x00) ∧ xor8 0x12 0x12 = (0x00, 0x80) ∧ and8 0x5A 0x3F = (0x1A, 0x20) ∧
      and8 0xF0 0x0F = (0x00, 0xA0) ∧ or8 0x5A 0x03 = (0x5B, 0x00) ∧ or8 0x00 0x00 = (0x00, 0x80) ∧
      cpl8 0x00 0x90 = (0xFF, 0xF0) ∧ cpl8 0xFF 0x80 = (0x00, 0xE0) ∧ cpl8 0x12 0x0F = (0xED, 0x6F) := by decide

theorem test_rotate_vectors :
    rrca8 0x3B = (0x9D, 0x10) ∧ rrca8 0x00 = (0x00, 0x00) ∧ srl8 0x01 = (0x00, 0x90) ∧ srl8 0x80 = (0x40, 0x00) ∧
      swap8 0xAB = (0xBA, 0x00) ∧ swap8 0x00 = (0x00, 0x80) ∧ rlc8 0x85 = (0x0B, 0x10) ∧ rlc8 0x80 = (0x01, 0x10) ∧
      rrc8 0x01 = (0x80, 0x10) ∧ rrc8 0x00 = (0x00, 0x80) ∧ sla8 0x80 = (0x00, 0x90) ∧ sla8 0x40 = (0x80, 0x00) ∧
      sra8 0x8A = (0xC5, 0x00) ∧ sra8 0x01 = (0x00, 0x90) := by decide

/-! ## One step on a line: sections 2.6 to 2.8 and the programs of part 3 -/

theorem test_step_add :
    (gives (st 0x3A00 0 0 0 0) "ADD A, $C6" (st 0x00B0 0 0 0 0)
      && gives (st 0x3A00 0 0 0 0) "add %11000110" (st 0x00B0 0 0 0 0)
      && gives (st 0x3A00 0xC600 0 0 0) "add B" (st 0x00B0 0xC600 0 0 0)
      && gives (st 0x3A00 0 0 0xC000 0 [(0xC000, 0xC6)]) "add A, [HL]" (st 0x00B0 0 0 0xC000 0 [(0xC000, 0xC6)])
      && gives (st 0xAB00 0 0 0 0) "add A, A" (st 0x5630 0 0 0 0)
      && gives (st 0x0000 0 0 0 0) "add A, -1" (st 0xFF00 0 0 0 0)) = true := by decide +kernel

theorem test_step_adc_sub_sbc_cp :
    (gives (st 0xE110 0 0x000F 0 0) "adc A, E" (st 0xF100 0 0x000F 0 0)
      && gives (st 0x3E00 0 0x003E 0 0) "sub E" (st 0x00C0 0 0x003E 0 0)
      && gives (st 0x3B10 0 0 0x2A00 0) "sbc A, H" (st 0x1040 0 0 0x2A00 0)
      && gives (st 0x3C00 0x2F00 0 0 0) "cp B" (st 0x3C60 0x2F00 0 0 0)
      && gives (st 0x9A00 0 0 0 0) "cp $C0" (st 0x9A50 0 0 0 0)) = true := by decide +kernel

theorem test_step_accumulator_memory :
    (gives (st 0x1200 0x1234 0x1234 0xCFFD 0xD000) "sub A, [HL]" (st 0x1240 0x1234 0x1234 0xCFFD 0xD000)
      && gives (st 0x3A10 0 0 0xC000 0 [(0xC000, 0xC5)]) "adc A, [HL]" (st 0x00B0 0 0 0xC000 0 [(0xC000, 0xC5)])
      && gives (st 0x1010 0 0 0xC000 0 [(0xC000, 0x0F)]) "sbc A, [HL]" (st 0x00C0 0 0 0xC000 0 [(0xC000, 0x0F)])
      && gives (st 0x3C00 0 0 0xC000 0 [(0xC000, 0x40)]) "cp [HL]" (st 0x3C50 0 0 0xC000 0 [(0xC000, 0x40)])
      && gives (st 0xFF00 0 0 0xC000 0 [(0xC000, 0x0F)]) "xor [HL]" (st 0xF000 0 0 0xC000 0 [(0xC000, 0x0F)]))
      = true := by decide +kernel

theorem test_step_logic :
    (gives (st 0xFF00 0 0 0 0) "xor A" (st 0x0080 0 0 0 0) && gives (st 0xFF00 0 0 0 0) "xor $0F" (st 0xF000 0 0 0 0)
      && gives (st 0x3500 0 0 0 0) "cpl" (st 0xCA60 0 0 0 0) && gives (st 0x120F 0 0 0 0) "cpl" (st 0xED6F 0 0 0 0))
      = true := by decide +kernel

theorem test_step_extended :
    (gives (ext (st 0x5A00 0x5A3F 0 0 0)) "and C" (ext (st 0x1A20 0x5A3F 0 0 0))
      && gives (ext (st 0x1A20 0 0 0 0)) "or $C0" (ext (st 0xDA00 0 0 0 0))
      && gives (ext (st 0xDA00 0 0 0 0)) "rlc A" (ext (st 0xB510 0 0 0 0))
      && gives (ext (st 0xB510 0 0 0 0)) "sla A" (ext (st 0x6A10 0 0 0 0))
      && gives (ext (st 0x6A10 0 0 0 0)) "sra A" (ext (st 0x3500 0 0 0 0))
      && gives (ext (st 0x3500 0 0 0 0)) "rrc A" (ext (st 0x9A10 0 0 0 0))) = true := by decide +kernel

theorem test_step_add16_inc_dec :
    (gives (st 0x0080 0x0001 0 0x0FFF 0) "add HL, BC" (st 0x00A0 0x0001 0 0x1000 0)
      && gives (st 0x0000 0 0 0x00FE 0) "add HL, HL" (st 0x0000 0 0 0x01FC 0)
      && gives (st 0x0010 0xFF00 0 0 0) "inc B" (st 0x00B0 0 0 0 0)
      && gives (st 0x0000 0 0 0x0100 0) "dec L" (st 0x0060 0 0 0x01FF 0)) = true := by decide +kernel

theorem test_step_rotates :
    (gives (st 0x3B00 0 0 0 0) "rrca" (st 0x9D10 0 0 0 0) && gives (st 0 0x0005 0 0 0) "srl C" (st 0x0010 0x0002 0 0 0)
      && gives (st 0xC010 0x0102 0 0 0) "swap B" (st 0xC000 0x1002 0 0 0)) = true := by decide +kernel

theorem test_step_loads :
    (gives State.reset "LD BC, %0000000000010011" (st 0 0x0013 0 0 0)
      && gives State.reset "ld HL, -1" (st 0 0 0 0xFFFF 0)
      && gives (st 0 0x9A00 0 0 0) "ld A, B" (st 0x9A00 0x9A00 0 0 0)
      && gives State.reset "ld A, -1" (st 0xFF00 0 0 0 0)
      && gives (st 0 0 0 0xC000 0 [(0xC000, 0x5C)]) "ld H, [HL]" (st 0 0 0 0x5C00 0 [(0xC000, 0x5C)])
      && gives State.reset "ld SP, $D000" (st 0 0 0 0 0xD000)
      && gives (st 0 0 0 0xC123 0) "ld SP, HL" (st 0 0 0 0xC123 0xC123)
      && gives (st 0x12B0 0x3456 0 0 0) "nop" (st 0x12B0 0x3456 0 0 0)) = true := by decide +kernel

theorem test_step_stores :
    (gives (st 0 0x7E00 0 0xC000 0) "ld [HL], B" (st 0 0x7E00 0 0xC000 0 [(0xC000, 0x7E)])
      && gives (st 0 0 0 0xC000 0 [(0xC000, 0x13)]) "ld [HL], B" (st 0 0 0 0xC000 0)
      && gives (st 0 0 0 0xC000 0) "ld [HL], $42" (st 0 0 0 0xC000 0 [(0xC000, 0x42)])
      && gives State.reset "ld [HL], -1" (st 0 0 0 0 0 [(0, 0xFF)])
      && gives (st 0xED6F 0 0 0xFFFF 0) "ld [HLI], A" (st 0xED6F 0 0 0x0000 0 [(0xFFFF, 0xED)])
      && gives (st 0xED6F 0 0 0 0 [(0xFFFF, 0xED)]) "ld [HLD], A" (st 0xED6F 0 0 0xFFFF 0 [(0, 0xED), (0xFFFF, 0xED)]))
      = true := by decide +kernel

theorem test_step_loads_stepping_hl :
    (gives (st 0 0 0 0xFFFF 0 [(0xFFFF, 0x77)]) "ld A, [HLI]" (st 0x7700 0 0 0 0 [(0xFFFF, 0x77)])
      && gives (st 0 0 0 0xC001 0 [(0xC001, 0x22)]) "ld A, [HLD]" (st 0x2200 0 0 0xC000 0 [(0xC001, 0x22)])) = true := by
  decide +kernel

theorem test_step_stack :
    (gives (st 0 0x1234 0 0 0xD000) "push BC" (st 0 0x1234 0 0 0xCFFE [(0xCFFE, 0x34), (0xCFFF, 0x12)])
      && gives (st 0 0 0 0xCFFD 0) "push HL" (st 0 0 0 0xCFFD 0xFFFE [(0xFFFE, 0xFD), (0xFFFF, 0xCF)])
      && gives (st 0 0 0 0 0xCFFE [(0xCFFE, 0x34), (0xCFFF, 0x12)]) "pop DE"
        (st 0 0 0x1234 0 0xD000 [(0xCFFE, 0x34), (0xCFFF, 0x12)])
      && gives (st 0 0 0 0x0001 0xFFFE [(0xFFFE, 0xFD), (0xFFFF, 0xCF)]) "pop HL"
        (st 0 0 0 0xCFFD 0 [(0xFFFE, 0xFD), (0xFFFF, 0xCF)])
      && errs (st 0 0 0x1234 0 0x0001) "push DE" .range && errs (st 0 0 0 0x1234 0xFFFF) "pop HL" .range) = true := by
  decide +kernel

theorem test_step_examine :
    (shows (st 0 0 0 0 0 [(0xC000, 0x34), (0xC001, 0x12)]) "r/2 $C000"
        (.text [.ch '$', .hex 1, .hex 2, .hex 3, .hex 4])
      && shows (st 0 0 0 0 0 [(0xFFFF, 0xA5)]) "r/1 $FFFF" (.text [.ch '$', .hex 0xA, .hex 5])
      && shows State.reset "r/4 $FFFC"
        (.text [.ch '$', .hex 0, .hex 0, .hex 0, .hex 0, .hex 0, .hex 0, .hex 0, .hex 0])
      && errs State.reset "r/4 $FFFD" .range && shows (st 0x3A00 0 0 0 0) "P a" (.printed 0x3A)
      && shows (st 0 0 0 0xC000 0 [(0xC000, 7)]) "print [HLI]" (.printed 7)) = true := by decide +kernel

theorem test_step_dump :
    (shows (st 0 0 0 0 0 [(0xFFFE, 0x34), (0xFFFF, 0x12)]) "x/2 $FFFE, 1"
        (.dump [⟨[.ch '$', .hex 0xF, .hex 0xF, .hex 0xF, .hex 0xE, .ch ':'], [[.hex 1, .hex 2, .hex 3, .hex 4]]⟩])
      && errs State.reset "x/2 $FFFE, 2" .range && errs State.reset "x/1 2, 65535" .range
      && shows State.reset "x/4 0, 0" (.dump [])
      && decide ((dumpRows [] .byte 0xC000 32).map (·.head) =
        [[.ch '$', .hex 0xC, .hex 0, .hex 0, .hex 0, .ch ':'], [.ch '$', .hex 0xC, .hex 0, .hex 1, .hex 0, .ch ':']]))
      = true := by decide +kernel

theorem test_step_status :
    shows (st 0x00B0 0 0 0 0) "status" (.status (st 0x00B0 0 0 0 0).regs "[Z-HC]".toList) = true := by decide +kernel

theorem test_step_cautious_instance :
    (refuses (cautious State.reset) "push BC" && refuses (cautious State.reset) "add A, B"
      && gives (cautious (st 0 0xFF00 0 0 0)) "inc B" (cautious (st 0x00A0 0 0 0 0))
      && errs (cautious State.reset) "push AF" (.unknownOperand "AF".toList)) = true := by decide +kernel

theorem test_ports :
    (portGives State.reset (.set8 "A".toList (-128)) (st 0x8000 0 0 0 0) (.success .none)
      && portGives State.reset (.set16 "AF".toList 0x12FF) (st 0x12FF 0 0 0 0) (.success .none)
      && portGives (st 0x007F 0 0 0 0) (.setFlag "C".toList false) (st 0x006F 0 0 0 0) (.success .none)
      && portGives State.reset (.get8 "PCH".toList) State.reset (.error .range)
      && portGives State.reset (.mset .dword 0xFFFC 0x12345678)
        (st 0 0 0 0 0 [(0xFFFC, 0x78), (0xFFFD, 0x56), (0xFFFE, 0x34), (0xFFFF, 0x12)]) (.success .none)
      && portGives State.reset (.mset .word 0xFFFF 0x1234) State.reset (.error .range)
      && portGives State.reset (.mset .byte 0xC000 256) State.reset (.error .range)
      && portGives (st 0 0 0 0 0 [(0xC001, 0x56), (0xC002, 0x34)]) (.mget .word 0xC001)
        (st 0 0 0 0 0 [(0xC001, 0x56), (0xC002, 0x34)]) (.success (.value 0x3456))) = true := by decide +kernel

/-- The next step after reset runs the instruction of a table row's word. -/
theorem test_with_fetch_word :
    ([(16, 0xC63A), (16, 0xCB00), (8, 0xC5), (24, 0x210000)] : List (Nat × Nat)).all (fun r =>
      match step (State.reset.withFetchWord r.1 r.2) with
      | .next t => decide (t.answer = some (.success .none))
      | _ => false) = true := by decide +kernel

/-! ## Witnesses: for every statement with hypotheses, a state and operands that meet them together -/

/-- A state with one command presented. -/
def withCmd (c : Command) (s : State) : State := { s with pending := [.command c] }

theorem test_witness_ext_statements : Config.params.extOps = false ∧ "and" ∈ ["and", "or"] ∧
    "sra" ∈ ["rlc", "rrc", "sla", "sra"] := by decide

theorem test_witness_NopChangesNothing : splitLine " ; a comment".toList = none := by decide

/-- HL at both ends of memory. -/
theorem test_witness_StoresOneByteAtHl_and_StoresAAndStepsHl :
    (st 0 0 0 0xFFFF 0).Inv ∧ (st 0 0 0 0 0 [(0, 1), (0xFFFF, 2)]).Inv := ⟨rfl, rfl⟩

theorem test_witness_LoadsAAndStepsHl :
    (Instr.ldAHld, State.reset.reg16 .hl - 1) ∈
      [(Instr.ldAHli, State.reset.reg16 .hl + 1), (Instr.ldAHld, State.reset.reg16 .hl - 1)] := by decide

theorem test_witness_PushStoresBelowSp_errs : (st 0 0 0 0 1).Inv ∧ (st 0 0 0 0 1).reg16 .sp = 1 := ⟨rfl, rfl⟩

theorem test_witness_PushStoresBelowSp_completes :
    (st 0 0 0 0 0).Inv ∧ (st 0 0 0 0 0).reg16 .sp ≠ 1 ∧ (st 0 0 0 0 2).Inv ∧ (st 0 0 0 0 2).reg16 .sp ≠ 1 :=
  ⟨rfl, by decide, rfl, by decide⟩

theorem test_witness_PopLoadsFromSp_errs : (st 0 0 0 0 0xFFFF).reg16 .sp = 0xFFFF := rfl

theorem test_witness_PopLoadsFromSp_completes :
    (st 0 0 0 0 0xFFFE).reg16 .sp ≠ 0xFFFF ∧ (st 0 0 0 0 0).reg16 .sp ≠ 0xFFFF := by decide

theorem test_witness_PopAfterPushMovesThePair : (st 0 0x1234 0 0 0).Inv ∧ (st 0 0x1234 0 0 0).reg16 .sp ≠ 1 :=
  ⟨rfl, by decide⟩

theorem test_witness_PrintShowsTheOperand : (Instr.p = Instr.p ∨ Instr.p = Instr.print) ∧
    PrintArg.atHLD ∈ [PrintArg.atHL, PrintArg.atHLI, PrintArg.atHLD] := ⟨.inl rfl, by decide⟩

/-- The addresses where the clauses meet, at each width. -/
theorem test_witness_ExamineShowsMemory : ([1, 2, 4] : List Int).all (fun n =>
    decide (0 ≤ (0 : Int) ∧ 0 ≤ 0x10000 - n) && decide (0 ≤ 0x10000 - n ∧ 0x10000 - n ≤ 0x10000 - n)
      && decide ((-1 : Int) < 0) && decide (0x10000 - n < 0x10000 - n + 1)) = true := by decide

/-- The offsets and counts where the clauses meet, at each width. -/
theorem test_witness_DumpShowsItems : ([(1, 65536), (2, 32768), (4, 16384)] : List (Int × Int)).all (fun x =>
    decide (0 ≤ (0 : Int) ∧ 0 ≤ x.2 ∧ 0 + x.2 * x.1 ≤ 0x10000)
      && decide (0 ≤ (0x10000 : Int) ∧ 0 ≤ (0 : Int) ∧ 0x10000 + 0 * x.1 ≤ 0x10000)
      && decide (0x10000 < 0 + (x.2 + 1) * x.1) && decide ((-1 : Int) < 0)) = true := by decide

theorem test_witness_ExamineChangesNothing : encode (.x4 0 1) = none ∧ encode .status = none := by decide

theorem test_witness_TextOfAnInstructionDecodesToIt :
    (Instr.r1 (-32768)).wf = true ∧ ((Instr.r1 (-32768)).mnemonic.isExt = true → Config.params.extOps = true) ∧
      (Instr.orN8 0).wf = true ∧ ((Instr.orN8 0).mnemonic.isExt = true → (⟨true, true⟩ : Params).extOps = true) := by
  decide

theorem test_witness_DecodedCommandsAreWellFormed :
    decodeCommand Config.params (cmd "r/1" ["-1"]) = .ok (.r1 (-1)) := by decide

theorem test_witness_BytesOfAnInstructionDecodeToIt : encode (.ldSpN16 0x1234) = some [0x31, 0x34, 0x12] := by decide

theorem test_witness_DecodedBytesAreTheInstructionsBytes :
    decode [0xCB, 0x37, 0x00] = some (.swapR8 .a, [0x00]) := by decide

theorem test_witness_PresentedWordRuns : decodeTableWord 16 0xE60F = some (.andN8 0x0F) := by decide

/-- A literal for each clause, at the ends of its range. -/
theorem test_witness_LiteralKindsFollowTheRange :
    ([("0", 0), ("7", 7), ("-128", -128), ("-1", -1), ("8", 8), ("127", 127), ("128", 128), ("255", 255),
      ("-32768", -32768), ("-129", -129), ("256", 256), ("65535", 65535), ("-32769", -32769), ("$10000", 65536)] :
        List (String × Int)).all (fun x => decide (literal (x.1.toList.map upperChar) = some x.2)) = true := by decide

theorem test_witness_EqualLiteralsAreOneToken :
    literal ("$ffff".toList.map upperChar) = some 65535 ∧ literal ("65535".toList.map upperChar) = some 65535 ∧
      literal ("-32768".toList.map upperChar) = some (-32768) ∧ literal ("-$8000".toList.map upperChar) = some (-32768) :=
  by decide

theorem test_witness_StepRunsTheDecodedInstruction :
    (withCmd (cmd "INC" ["b"]) State.reset).pending = Request.command (cmd "INC" ["b"]) :: [] ∧
      (withLine "INC b ; x" State.reset).pending = Request.line "INC b ; x".toList :: [] ∧
      splitLine "INC b ; x".toList = some (cmd "INC" ["b"]) ∧
      decodeCommand State.reset.params (cmd "INC" ["b"]) = .ok (.incR8 .b) ∧
      formAdopted State.reset.params (.incR8 .b) = true := by decide

theorem test_witness_StepAnswersADecodingError :
    (withCmd (cmd "jp" []) State.reset).pending = Request.command (cmd "jp" []) :: [] ∧
      decodeCommand State.reset.params (cmd "jp" []) = .error .unknownMnemonic := by decide

theorem test_witness_BlankLineIsANoOp :
    (withLine " \t" State.reset).pending = Request.line [' ', '\t'] :: [] ∧ (∀ x ∈ [' ', '\t'], isBlank x = true) ∧
      (withLine " \t;c" State.reset).pending = Request.line ([' ', '\t'] ++ ';' :: ['c']) :: [] :=
  ⟨rfl, by simp [isBlank], rfl⟩

theorem test_witness_ArityErrorExactlyOnAWrongCount :
    dispatchKey Config.params "NOP".toList = some .nop ∧ 1 ∉ acceptedCounts .nop ∧ 0 ∈ acceptedCounts .nop := by decide

/-- R67: the forms in either case of letters. -/
theorem test_symbols_in_either_case :
    ([("hl", [.pairHL, .r16], .r16 .hl), ("HL", [.pairHL, .r16], .r16 .hl), ("[Hli]", [.atHLI], .atHLI),
      ("[HLI]", [.atHLI], .atHLI), ("c", [.r8, .cc], .r8 .c)] : List (String × List Kind × Symbol)).all (fun x =>
        decide (classify x.1.toList = .known x.2.1 (.sym x.2.2))) = true := by decide

/-- Operands that are classified and are no register of kind `r8`: every other kind, and a literal at each end. -/
theorem test_witness_TakesOnlyR8 :
    (["BC", "DE", "HL", "SP", "[HL]", "[HLI]", "[HLD]", "7", "-32768", "65535"].all fun x =>
      match classify x.toList with
      | .known ks _ => decide (Kind.r8 ∉ ks)
      | .unknown _ => false) = true := by decide

theorem test_witness_LeftmostUnknownOperandIsReported :
    dispatchKey Config.params "ld".toList = some .ld ∧ (cmd "ld" ["A", "AF"]).operands.length ∈ acceptedCounts .ld ∧
      literal ("af".toList.map upperChar) = none ∧ "af".toList.map upperChar ∉ symbolForms.map (·.1) := by
  decide

theorem test_witness_UnadmittedFormsAreErrors :
    dispatchKey Config.params "add".toList = some .add ∧ (cmd "add" ["B", "C"]).operands.length ∈ acceptedCounts .add ∧
      ∀ x ∈ (cmd "add" ["B", "C"]).operands, Classified x := by
  refine ⟨by decide, by decide, fun x hx => ?_⟩
  rcases List.mem_pair.1 hx with rfl | rfl <;> exact ⟨_, _, rfl⟩

/-- A command that fits no form: `push SP`. -/
theorem test_witness_UnadmittedFormsAreErrors_no_form (i : Instr) : ¬ FitsForm Config.params (cmd "push" ["SP"]) i := by
  rintro ⟨hk, hf⟩
  have hm : i.mnemonic = .push := (Option.some.inj (hk.symm.trans (by decide : _ = some Mnemonic.push)))
  rw [hm] at hf
  cases i with
  | push rr =>
    obtain ⟨⟨ks, e, -⟩, -⟩ := List.forall₂_cons.1 hf
    cases e
  | _ => cases hm

/-- The families of R85: an accumulator form whose first operand is no `A`, one of `add` that is no `HL` either, a load
into a literal, and an operand that is no token. -/
theorem test_witness_UnadmittedFormsAreErrors_families :
    dispatchKey Config.params "cp".toList = some .cp ∧ Mnemonic.cp.isAccumulator = true ∧ Classified "HL".toList ∧
      "HL".toList.map upperChar ≠ "A".toList ∧ "sp".toList.map upperChar ≠ "HL".toList ∧ Classified "sp".toList ∧
      (∃ ks, classify "-1".toList = .known ks (.int (-1))) ∧ R8.h ≠ .a ∧
      "pc".toList.map upperChar ∈ ["F", "PC"].map String.toList ∧
      (cmd "inc" ["pc"]).operands.length ∈ acceptedCounts .inc :=
  ⟨by decide, by decide, ⟨_, _, rfl⟩, by decide, by decide, ⟨_, _, rfl⟩, ⟨_, rfl⟩, by decide, by decide, by decide⟩

theorem test_witness_OneOperandMeansTheAccumulator :
    ([] : List Text).length ≠ 1 ∧ ([] : List Text).length ≠ 2 ∧ (cmd "add" ["A", "B", "C"]).operands.length ≠ 1 ∧
      (cmd "add" ["A", "B", "C"]).operands.length ≠ 2 := by decide

theorem test_witness_CaseDoesNotMatter :
    (cmd "Ld" ["hL", "$c0"]).mnemonic.map lowerChar = (cmd "lD" ["Hl", "$C0"]).mnemonic.map lowerChar ∧
      (cmd "Ld" ["hL", "$c0"]).operands.map (·.map upperChar) = (cmd "lD" ["Hl", "$C0"]).operands.map (·.map upperChar) ∧
      decodeCommand Config.params (cmd "Ld" ["hL", "$c0"]) = .ok (.ldR16N16 .hl 0x00C0) := by decide

theorem test_witness_UnadoptedFormsAreRefused :
    (withCmd (cmd "push" ["BC"]) (cautious State.reset)).pending = Request.command (cmd "push" ["BC"]) :: [] ∧
      (cautious State.reset).params.inferredForms = false ∧
      decodeCommand (cautious State.reset).params (cmd "push" ["BC"]) = .ok (.push .bc) ∧
      (Instr.push .bc).grade ≠ .settled ∧
      decodeCommand (cautious State.reset).params (cmd "inc" ["B"]) = .ok (.incR8 .b) ∧
      (Instr.incR8 .b).grade = .settled := by decide

theorem test_witness_StepKeepsCanonicalMemory :
    (withLine "ld [HL], 1" State.reset).Inv ∧ ∃ t, step (withLine "ld [HL], 1" State.reset) = .next t :=
  ⟨rfl, _, rfl⟩

theorem test_witness_CommandsKeepTheLowNibbleZero :
    (State.reset.reg8 .f).toNat % 16 = 0 ∧ ∃ t, exec .cpl State.reset = .next t := ⟨rfl, _, rfl⟩

theorem test_witness_NoCommandTouchesPc :
    (withLine "nop" State.reset).pending = Request.line "nop".toList :: [] ∧
      isCommandRequest (.line "nop".toList) = true ∧ ∃ t, step (withLine "nop" State.reset) = .next t :=
  ⟨rfl, rfl, _, rfl⟩

theorem test_witness_ErrorsChangeNothing :
    (withLine "halt" State.reset).pending = Request.line "halt".toList :: [] ∧
      ∃ t, step (withLine "halt" State.reset) = .next t ∧ t.answer = some (.error .unknownMnemonic) :=
  ⟨rfl, _, rfl, rfl⟩

theorem test_witness_EveryRequestIsAnswered :
    (withLine "halt" State.reset).pending = Request.line "halt".toList :: [] ∧
      (withLine "halt" State.reset).params.inferredForms = true ∧
      ∃ t, step (withLine "halt" State.reset) = .next t ∧ t.answer = some (.error .unknownMnemonic) :=
  ⟨rfl, rfl, _, rfl, rfl⟩

/-- Keys of no register, and values on both sides of every bound. -/
theorem test_witness_register_ports :
    "PCH".toList ∉ ["A", "F", "B", "C", "D", "E", "H", "L"].map String.toList ∧
      "IX".toList ∉ ["AF", "BC", "DE", "HL", "PC", "SP"].map String.toList ∧
      "A".toList ∉ ["Z", "N", "H", "C"].map String.toList ∧ (-128 : Int) ≤ -128 ∧ (-128 : Int) ≤ 255 ∧
      (-129 : Int) < -128 ∧ (255 : Int) < 256 ∧ (-32768 : Int) ≤ 65535 ∧ (-32769 : Int) < -32768 ∧
      (65535 : Int) < 65536 := by decide

/-- The addresses and values where the clauses meet, at each width. -/
theorem test_witness_MemoryPortRoundTrip :
    State.reset.Inv ∧ ([1, 2, 4] : List Nat).all (fun n =>
      decide ((0 : Int) ≤ 0x10000 - n ∧ ((0x10000 - n : Int) + n ≤ 0x10000))
        && decide ((0x10000 : Int) < 0x10000 - n + 1 + n) && decide ((0 : Int) ≤ 256 ^ n - 1 ∧ (256 : Int) ^ n - 1 < 256 ^ n)
        && decide ((256 : Int) ^ n ≤ 256 ^ n) && decide ((-1 : Int) < 0)) = true := ⟨rfl, by decide⟩

end Sys2Proof.Tests
end

