-- ==== Sys2Proof/Proofs/RegisterPairs.lean ====
section
/-! SUPPORT. The pairs AF, BC, DE, HL as views of their two 8-bit registers (spec R12, R13). -/

namespace Sys2Proof.Machine

@[simp] theorem toNat_hiByte (v : Word) : (hiByte v).toNat = v.toNat / 256 := by
  have := v.isLt
  simp only [hiByte, BitVec.toNat_ofNat]
  omega

@[simp] theorem toNat_loByte (v : Word) : (loByte v).toNat = v.toNat % 256 := BitVec.toNat_ofNat v.toNat 8

@[simp] theorem toNat_pair (hi lo : Byte) : (pair hi lo).toNat = hi.toNat * 256 + lo.toNat := by
  have := hi.isLt
  have := lo.isLt
  simp only [pair, BitVec.toNat_ofNat]
  omega

/-- The pairs whose two bytes are 8-bit registers, each with its high and its low register (spec R12). -/
def registerPairs : List (Reg16 × Reg8 × Reg8) := [(.af, .a, .f), (.bc, .b, .c), (.de, .d, .e), (.hl, .h, .l)]

theorem halves_setReg16 (s : State) (v : Word) : ∀ x ∈ registerPairs,
    (s.setReg16 x.1 v).reg8 x.2.1 = hiByte v ∧ (s.setReg16 x.1 v).reg8 x.2.2 = loByte v := by
  intro x hx
  fin_cases hx <;> simp [reg8_setReg16]

/-- The pair's value is composed of what its two registers were last given. -/
theorem reg16_setHalves (s : State) (h l : Byte) : ∀ x ∈ registerPairs,
    ((s.setReg8 x.2.1 h).setReg8 x.2.2 l).reg16 x.1 = pair h l := by
  intro x hx
  fin_cases hx <;> rfl

theorem keepsRegs_setReg8 (s : State) (r : Reg8) (v : Byte) : KeepsRegs s (s.setReg8 r v) [r] :=
  fun _ hq => reg8_setReg8_of_ne s v (List.ne_of_not_mem_cons hq)

theorem keepsPairs_setReg8 (s : State) (r : Reg8) (v : Byte) : KeepsPairs s (s.setReg8 r v) [.pc, .sp] := by
  simp [KeepsPairs]

/-- Settles O56: each pair is read and written through its registers' bytes, and no 8-bit write reaches another byte. -/
theorem pairsAreTheirRegisters : Obligations.PairsAreTheirRegisters := by
  refine ⟨fun s x hx => ⟨fun v => ?_, fun h l => ?_⟩,
    fun s r v => ⟨reg8_setReg8_self s r v, keepsRegs_setReg8 s r v, keepsPairs_setReg8 s r v⟩⟩
  · obtain ⟨hhi, hlo⟩ := halves_setReg16 s v x hx
    rw [hhi, hlo]
    exact ⟨toNat_hiByte v, toNat_loByte v⟩
  · rw [reg16_setHalves s h l x hx, toNat_pair]

end Sys2Proof.Machine
end

