-- ==== Sys2Proof/Proofs/MemoryPort.lean ====
section
/-! SUPPORT. The memory port: its reads and its stores by whether the access lies in 0..0xFFFF and the value fits the
width (spec R41 to R45). -/

namespace Sys2Proof.Machine

/-- A little-endian read inside a little-endian write gives the bytes of the value the two have in common. -/
theorem readLE_writeLE_part {m : Memory} {addr n : Nat} (v : Nat) (hm : m.wf = true) (h : addr + n ≤ 0x10000)
    (i k : Nat) (hik : i + k ≤ n) : (m.writeLE addr n v).readLE (addr + i) k = v / 256 ^ i % 256 ^ k := by
  induction k generalizing i with
  | zero => simp [Memory.readLE, Nat.mod_one]
  | succ k ih =>
    have hrest := ih (i + 1) (by omega)
    rw [← Nat.add_assoc] at hrest
    rw [Memory.readLE, read_writeLE_byte v hm h i (by omega), hrest, BitVec.toNat_ofNat,
      Nat.pow_succ 256 i, ← Nat.div_div_eq_div_mul, Nat.pow_succ' (m := 256) (n := k), Nat.mod_mul]

section
variable (s : State) {w : Width} {a v : Int}

theorem inBounds_of_le (h0 : 0 ≤ a) (h : a + widthBytes w ≤ 0x10000) : inBounds a w = true :=
  (inBounds_iff a w).2 ⟨h0, by omega⟩

theorem inBounds_eq_false (h : a < 0 ∨ 0x10000 < a + widthBytes w) : inBounds a w = false := by
  rw [Bool.eq_false_iff, ne_eq, inBounds_iff]
  omega

theorem mget_of_inBounds (hb : inBounds a w = true) :
    portCall (.mget w a) s = .next (s.answered (.success (.value (leValue s.mem a.toNat w)))) := by
  simp only [portCall, portMget, memRead_of_inBounds hb, readLE_eq_leValue, complete_eq]

theorem mget_of_not_inBounds (hb : inBounds a w = false) :
    portCall (.mget w a) s = .next (s.answered (.error .range)) := by
  simp only [portCall, portMget, memRead_of_not_inBounds hb, raise_eq]

theorem mset_of_inBounds (hb : inBounds a w = true) (h0 : 0 ≤ v) (hv : v < 256 ^ widthBytes w) :
    portCall (.mset w a v) s =
      .next ((s.setMem (s.mem.writeLE a.toNat (widthBytes w) v.toNat)).answered (.success .none)) := by
  simp only [portCall, portMset, h0, hv, and_self, if_true, memWrite_of_inBounds hb, complete_eq]

theorem mset_of_not_fits (h : v < 0 ∨ 256 ^ widthBytes w ≤ v) :
    portCall (.mset w a v) s = .next (s.answered (.error .range)) := by
  have hv : ¬(0 ≤ v ∧ v < 256 ^ widthBytes w) := by omega
  simp only [portCall, portMset, hv, if_false, raise_eq]

/-- Out of bounds the store errs whether the value fits or not. -/
theorem mset_of_not_inBounds (hb : inBounds a w = false) :
    portCall (.mset w a v) s = .next (s.answered (.error .range)) := by
  by_cases hv : 0 ≤ v ∧ v < 256 ^ widthBytes w
  · simp only [portCall, portMset, hv, and_self, if_true, memWrite_of_not_inBounds hb, raise_eq]
  · exact mset_of_not_fits s (by omega)

end

/-- A stored value that fits its width reads back whole at that width (spec R48). -/
theorem leValue_writeLE {m : Memory} {addr : Nat} {w : Width} (v : Nat) (hm : m.wf = true)
    (h : addr + widthBytes w ≤ 0x10000) (hv : v < 256 ^ widthBytes w) :
    leValue (m.writeLE addr (widthBytes w) v) addr w = v := by
  rw [← readLE_eq_leValue, readLE_writeLE v hm h, Nat.mod_eq_of_lt hv]

/-- A stored 32-bit value reads back in its two 16-bit halves, the low one first (spec R43). -/
theorem leValue_halves_writeLE {m : Memory} {addr : Nat} (v : Nat) (hm : m.wf = true) (h : addr + 4 ≤ 0x10000)
    (hv : v < 256 ^ 4) :
    leValue (m.writeLE addr 4 v) addr .word = v % 65536 ∧
      leValue (m.writeLE addr 4 v) (addr + 2) .word = v / 65536 := by
  have hlo := readLE_writeLE_part v hm h 0 2 (by omega)
  have hhi := readLE_writeLE_part v hm h 2 2 (by omega)
  rw [← readLE_eq_leValue, ← readLE_eq_leValue]
  exact ⟨hlo.trans (by simp), hhi.trans (by omega)⟩

theorem widthBytes_of_mem : ∀ w ∈ [(Width.byte, (1 : Nat)), (Width.word, 2), (Width.dword, 4)],
    widthBytes w.1 = w.2 := by decide

/-- Settles O60: the port's stores and reads are the little-endian ones where the access and the value fit, and a
RangeError elsewhere. -/
theorem memoryPortRoundTrip : Obligations.MemoryPortRoundTrip := by
  intro s a v hs ⟨w, n⟩ hw
  obtain rfl : widthBytes w = n := widthBytes_of_mem _ hw
  refine ⟨fun ha hb => ?_, fun hb => ?_, mset_of_not_fits s⟩
  · have hin := inBounds_of_le ha hb
    have hend := ((inBounds_iff a w).1 hin).2
    refine ⟨mget_of_inBounds s hin, fun h0 hv => ?_⟩
    have hvn : v.toNat < 256 ^ widthBytes w := (Int.toNat_lt h0).2 (by exact_mod_cast hv)
    refine ⟨_, mset_of_inBounds s hin h0 hv, rfl, ?whole, fun i hi => ?bytes, fun h4 => ?halves,
      fun q hq => read_writeLE_of_outside _ _ hq, wf_writeLE _ hs hend, rfl, rfl, rfl⟩
    case whole =>
      rw [answered_mem, setMem_mem, leValue_writeLE v.toNat hs hend hvn, Int.toNat_of_nonneg h0]
    case bytes =>
      rw [answered_mem, setMem_mem, read_writeLE_byte v.toNat hs hend i hi, BitVec.toNat_ofNat]
    case halves =>
      simp only at h4
      simp only [answered_mem, setMem_mem, h4] at hend hvn ⊢
      exact leValue_halves_writeLE v.toNat hs hend hvn
  · have hout := inBounds_eq_false hb
    exact ⟨mget_of_not_inBounds s hout, mset_of_not_inBounds s hout⟩

end Sys2Proof.Machine
end

