-- ==== Sys2Proof/Proofs/Classifier.lean ====
section
/-! SUPPORT. The operand classifier: the token of a literal by the range of its value, and of a symbolic form by its
upper-case spelling (spec R66, R67, R69). -/

namespace Sys2Proof.Machine

open Sys2Proof.Laws

/-! ## The kinds of a literal's value -/

section
variable {v : Int}

theorem inN16_of_bounds (h0 : -32768 ≤ v) (h : v ≤ 65535) : inN16 v = true := by
  simp [inN16, h0, h]

theorem inN16_of_outside (h : v < -32768 ∨ 65535 < v) : inN16 v = false := by
  simp only [inN16, Bool.and_eq_false_iff, decide_eq_false_iff_not]
  omega

theorem kindsOf_of_u3 (h0 : 0 ≤ v) (h : v ≤ 7) : kindsOf v = [.u3, .e8, .n8, .n16] := by
  rw [kindsOf, if_pos ⟨h0, h⟩]

theorem kindsOf_of_e8 (h : (-128 ≤ v ∧ v ≤ -1) ∨ (8 ≤ v ∧ v ≤ 127)) : kindsOf v = [.e8, .n8, .n16] := by
  rw [kindsOf, if_neg (by omega), if_pos (by omega)]

theorem kindsOf_of_n8 (h0 : 128 ≤ v) (h : v ≤ 255) : kindsOf v = [.n8, .n16] := by
  rw [kindsOf, if_neg (by omega), if_neg (by omega), if_pos (by omega)]

theorem kindsOf_of_n16 (h : (-32768 ≤ v ∧ v ≤ -129) ∨ (256 ≤ v ∧ v ≤ 65535)) : kindsOf v = [.n16] := by
  rw [kindsOf, if_neg (by omega), if_neg (by omega), if_neg (by omega), if_pos (by omega)]

end

/-! ## The tokens -/

section
variable {raw : Text}

theorem classify_of_outside {v : Int} (h : literal (raw.map upperChar) = some v) (hv : inN16 v = false) :
    classify raw = .unknown raw := by
  simp [classify, h, kindsOf_eq_nil hv]

theorem classify_of_symbolForms {ks : List Kind} {x : Symbol} (h : (raw.map upperChar, ks, x) ∈ symbolForms) :
    classify raw = .known ks (.sym x) := by
  simp [classify, literal_of_symbolForms h, symbolOf_eq_some.2 h]

end

/-- Settles O37: the ranges of spec R66 give a literal in range its kinds; outside them it is unknown. -/
theorem literalKindsFollowTheRange : Obligations.LiteralKindsFollowTheRange := by
  intro raw v h
  have token : ∀ {ks : List Kind}, kindsOf v = ks → -32768 ≤ v → v ≤ 65535 → classify raw = .known ks (.int v) := by
    rintro _ rfl h0 h1
    exact classify_literal h (inN16_of_bounds h0 h1)
  exact ⟨fun h0 h1 => token (kindsOf_of_u3 h0 h1) (by omega) (by omega),
    fun hv => token (kindsOf_of_e8 hv) (by omega) (by omega),
    fun h0 h1 => token (kindsOf_of_n8 h0 h1) (by omega) (by omega),
    fun hv => token (kindsOf_of_n16 hv) (by omega) (by omega),
    fun hv => classify_of_outside h (inN16_of_outside hv)⟩

/-- Settles O39: a symbolic token is a row of the table of spec R67, and no row's text is a literal. -/
theorem symbolsHaveTheirKinds : Obligations.SymbolsHaveTheirKinds := by
  refine fun raw ks x => ⟨fun h => ?_, classify_of_symbolForms⟩
  obtain ⟨_, hv, -⟩ | ⟨y, hv, -, hy⟩ := classify_eq_known h
  · cases hv
  · cases hv
    exact symbolOf_eq_some.1 hy

/-- Settles O38: the token of a literal in range depends on its value only. -/
theorem equalLiteralsAreOneToken : Obligations.EqualLiteralsAreOneToken := by
  refine ⟨fun x y v hx hy h0 h1 => ?_, by decide, by decide, by decide⟩
  have hv := inN16_of_bounds h0 h1
  rw [classify_literal hx hv, classify_literal hy hv]

end Sys2Proof.Machine
end

