-- ==== Sys2Proof/Proofs/AccumulatorDefault.lean ====
section
/-! SUPPORT. The accumulator default: what a command of one operand, and of a wrong number of them, decodes to (spec
R74). -/

namespace Sys2Proof.Machine

open Sys2Proof.Laws

theorem normalise_two (m : Mnemonic) (x y : Text) : normalise m [x, y] = [x, y] := by simp [normalise]

section
variable {params : Params} {key : Text} {m : Mnemonic}

/-- An accumulator command reads one operand as the second one, the first being `A`. -/
theorem decodeCommand_one_operand (hk : dispatchKey params key = some m) (hm : m.isAccumulator = true) (x : Text) :
    decodeCommand params ⟨key, [x]⟩ = decodeCommand params ⟨key, [['A'], x]⟩ := by
  have hone : normalise m [x] = [['A'], x] := by simp [normalise, hm]
  rw [decodeCommand_of_key hk, decodeCommand_of_key hk, hone, normalise_two]

theorem decodeCommand_arity {ops : List Text} (hk : dispatchKey params key = some m)
    (h : ops.length ∉ acceptedCounts m) : decodeCommand params ⟨key, ops⟩ = .error .arity := by
  rw [decodeCommand_of_key hk, if_pos (mt (normalise_length m ops).1 h)]

end

theorem acceptedCounts_of_isAccumulator {m : Mnemonic} : m.isAccumulator = true → acceptedCounts m = [1, 2] := by
  cases m <;> decide

/-- The six spellings of spec R74 are accumulator commands that every instance has. -/
theorem dispatchKey_accumulator (params : Params) : ∀ s ∈ ["adc", "add", "cp", "sbc", "sub", "xor"],
    ∃ m, dispatchKey params s.toList = some m ∧ m.isAccumulator = true := by
  have keys : ∀ s ∈ ["adc", "add", "cp", "sbc", "sub", "xor"],
      ∃ m ∈ Mnemonic.all, m.text = s.toList ∧ m.isAccumulator = true ∧ m.isExt = false := by decide
  intro s hs
  obtain ⟨m, -, ht, ha, he⟩ := keys s hs
  exact ⟨m, ht ▸ dispatchKey_text params m (by simp [he]), ha⟩

/-- The first operand of `add HL, r16` is `HL`, which `A` is not. -/
theorem decodeCommand_A_ne_addHl {params : Params} {key x : Text} {rr : R16} :
    decodeCommand params ⟨key, [['A'], x]⟩ ≠ .ok (.addHl rr) := by
  intro h
  obtain ⟨m, -, -, -, hf⟩ := decodeCommand_eq_ok h
  rw [normalise_two] at hf
  obtain ⟨⟨ks, v, hd, hk⟩, -⟩ := List.forall₂_cons.1 (matchForm_eq_some hf).2
  obtain rfl : [Kind.accA, .r8] = ks := (Token.known.inj hd).1
  exact absurd hk (by decide)

/-- Settles O47: one operand is the second beside `A`, and `A` is no first operand of the 16-bit `add`. -/
theorem oneOperandMeansTheAccumulator : Obligations.OneOperandMeansTheAccumulator := by
  refine fun params => ⟨fun s hs => ?_, fun x rr => ?_⟩
  · obtain ⟨m, hk, hm⟩ := dispatchKey_accumulator params s hs
    refine ⟨decodeCommand_one_operand hk hm, fun ops h1 h2 => decodeCommand_arity hk ?_⟩
    simp [acceptedCounts_of_isAccumulator hm, h1, h2]
  · obtain ⟨m, hk, hm⟩ := dispatchKey_accumulator params "add" (by decide)
    rw [decodeCommand_one_operand hk hm]
    exact decodeCommand_A_ne_addHl

end Sys2Proof.Machine
end

