-- ==== Sys2Proof/Proofs/CaseFolding.lean ====
section
/-! SUPPORT. The case of letters: commands whose mnemonics agree in lower case and whose operands agree in upper case
decode alike, up to the text an UnknownOperandError records (spec R63). -/

namespace Sys2Proof.Machine

open Sys2Proof.Laws

/-! ## The recorded text in upper case -/

/-- A token, its recorded text in upper case. -/
def upperToken : Token → Token
  | .unknown raw => .unknown (raw.map upperChar)
  | .known ks v => .known ks v

/-- An error, its recorded text in upper case. -/
def upperError : CmdError → CmdError
  | .unknownOperand raw => .unknownOperand (raw.map upperChar)
  | e => e

theorem upperError_eq_unknownOperand {e : CmdError} {t : Text} :
    upperError e = .unknownOperand t ↔ ∃ raw, e = .unknownOperand raw ∧ raw.map upperChar = t := by
  cases e <;> simp [upperError]

theorem upperError_eq_self {e f : CmdError} (hf : ∀ t, f ≠ .unknownOperand t) : upperError e = f ↔ e = f := by
  cases e with
  | unknownOperand raw => simp [upperError, (hf _).symm]
  | _ => rfl

theorem mapError_eq_ok {ε ε' α : Type} {f : ε → ε'} {x : Except ε α} {a : α} :
    x.mapError f = .ok a ↔ x = .ok a := by
  cases x <;> simp [Except.mapError]

theorem mapError_eq_error {ε ε' α : Type} {f : ε → ε'} {x : Except ε α} {e : ε'} :
    x.mapError f = .error e ↔ ∃ e', x = .error e' ∧ f e' = e := by
  cases x <;> simp [Except.mapError]

/-! ## Tokens -/

theorem classify_known_of_upper_eq {x y : Text} {ks : List Kind} {v : TokenValue}
    (h : x.map upperChar = y.map upperChar) (hx : classify x = .known ks v) : classify y = .known ks v := by
  obtain ⟨n, rfl, hn, rfl, hl⟩ | ⟨s, rfl, -, hs⟩ := classify_eq_known hx
  · exact classify_literal (h ▸ hl) hn
  · exact classify_of_symbolForms (h ▸ symbolOf_eq_some.1 hs)

/-- The token of a text depends on its upper-case spelling only, the text an unknown one records apart. -/
theorem upperToken_classify {x y : Text} (h : x.map upperChar = y.map upperChar) :
    upperToken (classify x) = upperToken (classify y) := by
  cases hx : classify x with
  | known ks v => rw [classify_known_of_upper_eq h hx]
  | unknown raw =>
    cases hy : classify y with
    | known ks v => cases hx.symm.trans (classify_known_of_upper_eq h.symm hy)
    | unknown raw' =>
      obtain rfl := classify_unknown hx
      obtain rfl := classify_unknown hy
      simp only [upperToken, h]

theorem map_upperToken_classify {xs ys : List Text}
    (h : xs.map (·.map upperChar) = ys.map (·.map upperChar)) :
    (xs.map classify).map upperToken = (ys.map classify).map upperToken := by
  rw [← List.forall₂_eq_eq_eq, List.forall₂_map_left_iff, List.forall₂_map_right_iff] at h ⊢
  rw [List.forall₂_map_left_iff, List.forall₂_map_right_iff]
  exact h.imp fun _ _ => upperToken_classify

theorem firstUnknown_upperToken (toks : List Token) :
    firstUnknown (toks.map upperToken) = (firstUnknown toks).map (·.map upperChar) := by
  induction toks with
  | nil => rfl
  | cons t rest ih =>
    cases t with
    | known ks v => exact ih
    | unknown raw => rfl

/-- Tokens that are all known record no text. -/
theorem map_upperToken_of_known {toks : List Token} (h : firstUnknown toks = none) : toks.map upperToken = toks := by
  induction toks with
  | nil => rfl
  | cons t rest ih =>
    cases t with
    | known ks v => exact congrArg (_ :: ·) (ih h)
    | unknown raw => cases h

/-! ## Commands -/

/-- The accumulator default commutes with upper-casing: the `A` it adds is upper-case. -/
theorem normalise_upper (m : Mnemonic) (ops : List Text) :
    (normalise m ops).map (·.map upperChar) = normalise m (ops.map (·.map upperChar)) := by
  have hA : ['A'].map upperChar = ['A'] := rfl
  rcases ops with _ | ⟨x, _ | ⟨y, rest⟩⟩
  · simp [normalise]
  · cases hm : m.isAccumulator <;> simp [normalise, hm, hA]
  · simp [normalise]

/-- Commands that differ in the case of letters only decode alike, up to the case of a recorded text. -/
theorem decodeCommand_of_case_eq (params : Params) {c d : Command}
    (hm : c.mnemonic.map lowerChar = d.mnemonic.map lowerChar)
    (ho : c.operands.map (·.map upperChar) = d.operands.map (·.map upperChar)) :
    (decodeCommand params c).mapError upperError = (decodeCommand params d).mapError upperError := by
  have hkey : dispatchKey params c.mnemonic = dispatchKey params d.mnemonic := by simp only [dispatchKey, hm]
  cases hk : dispatchKey params d.mnemonic with
  | none => simp only [decodeCommand, hkey, hk]
  | some m =>
    have hops := congrArg (normalise m) ho
    rw [← normalise_upper, ← normalise_upper] at hops
    have hlen : (normalise m c.operands).length = (normalise m d.operands).length := by
      simpa using congrArg List.length hops
    rw [decodeCommand_of_key (hkey.trans hk), decodeCommand_of_key hk, hlen]
    split
    · rfl
    have htoks := map_upperToken_classify hops
    generalize (normalise m c.operands).map classify = tc at htoks ⊢
    generalize (normalise m d.operands).map classify = td at htoks ⊢
    have hfirst := congrArg firstUnknown htoks
    rw [firstUnknown_upperToken, firstUnknown_upperToken] at hfirst
    cases hc : firstUnknown tc <;> cases hd : firstUnknown td <;> rw [hc, hd] at hfirst
    case none.none =>
      rw [map_upperToken_of_known hc, map_upperToken_of_known hd] at htoks
      rw [htoks]
    case none.some => cases hfirst
    case some.none => cases hfirst
    case some.some raw raw' =>
      exact congrArg (fun t => Except.error (CmdError.unknownOperand t)) (Option.some.inj hfirst)

/-- Settles O48: an outcome and its case-folded form differ only in the text of an UnknownOperandError. -/
theorem caseDoesNotMatter : Obligations.CaseDoesNotMatter := by
  intro params c d hm ho
  have h := decodeCommand_of_case_eq params hm ho
  refine ⟨fun i hi => ?_, fun e he hi => ?_, fun raw hi => ?_⟩ <;> rw [hi] at h
  · exact mapError_eq_ok.1 h.symm
  · have hne : ∀ t, e ≠ .unknownOperand t := by
      rintro t rfl
      simp at he
    obtain ⟨e', hd, heq⟩ := mapError_eq_error.1 h.symm
    rw [(upperError_eq_self hne).2 rfl, upperError_eq_self hne] at heq
    rw [hd, heq]
  · obtain ⟨e', hd, heq⟩ := mapError_eq_error.1 h.symm
    obtain ⟨raw', rfl, hraw⟩ := upperError_eq_unknownOperand.1 heq
    exact ⟨raw', hraw, hd⟩

end Sys2Proof.Machine
end

section
/-! SUPPORT. The logic commands: what `cpl` leaves in A and in F (spec R132). -/

namespace Sys2Proof.Machine

open Sys2Proof.Laws

/-! ## Commands without operands -/

/-- A mnemonic that takes no operand is one that every instance has. -/
theorem isExt_of_acceptedCounts_zero {m : Mnemonic} : acceptedCounts m = [0] → m.isExt = false := by
  cases m <;> decide

/-- A command that takes no operand is an ArityError with any (spec R73). -/
theorem decodeCommand_arity_of_nullary {m : Mnemonic} (hm : acceptedCounts m = [0]) (params : Params) (x : Text)
    (xs : List Text) : decodeCommand params ⟨m.text, x :: xs⟩ = .error .arity := by
  have hkey : dispatchKey params m.text = some m :=
    dispatchKey_text params m (by simp [isExt_of_acceptedCounts_zero hm])
  exact decodeCommand_arity hkey (by simp [hm])

/-! ## The kernel of `cpl` -/

theorem cpl8_result (a f : Byte) : (cpl8 a f).1.toNat = 255 - a.toNat := by
  have hnot : (cpl8 a f).1 = ~~~a := BitVec.xor_allOnes
  rw [hnot, BitVec.toNat_not]

/-- `cpl` sets N and H in F and keeps the other flags. -/
theorem flagOf_cpl8 (a f : Byte) (x : Flag) : flagOf (cpl8 a f).2 x = (flagOf f x || decide (x = .n ∨ x = .h)) := by
  cases x <;> simp [cpl8, flagOf, flagBit]

theorem cpl8_low (a f : Byte) : (cpl8 a f).2.toNat % 16 = f.toNat % 16 := by
  have hmod := Nat.or_mod_two_pow (a := f.toNat) (b := 0x60) (n := 4)
  simpa [cpl8] using hmod

/-! ## The command -/

theorem exec_cpl (s : State) : exec .cpl s = commitA (cpl8 (s.reg8 .a) (s.reg8 .f)) s := rfl

/-- Settles O11: the flags byte of `cpl` is the old one with N and H set. -/
theorem cplMergesFlags : Obligations.CplMergesFlags := by
  refine ⟨rfl, decodeCommand_arity_of_nullary (m := .cpl) rfl, fun s => ?_⟩
  have hrun : Completes .cpl s _ .none := ⟨(exec_cpl s).trans (commitA_eq _ s), rfl⟩
  refine ⟨_, hrun, ?a, ?n, ?h, ?z, ?c, ?low, keepsRegs_commit _ _ _ _ _, keepsPairs_commit _ _ _ _ _ _,
    fun _ => rfl, rfl, rfl⟩
  case a => simp [cpl8_result]
  case low => simp [cpl8_low]
  all_goals simp [State.flag, flagOf_cpl8]

end Sys2Proof.Machine
end

section
/-! SUPPORT. The rotate and shift commands: `rrca` in numbers (spec R140, R141). -/

namespace Sys2Proof.Machine

/-! ## The kernel of `rrca` -/

/-- A byte rotated right by one is its half, with bit 0 added as bit 7. -/
theorem byte_rotateRight_one (a : Byte) :
    (a >>> 1) ||| ((a &&& 1) <<< 7) = BitVec.ofNat 8 (a.toNat / 2 + a.toNat % 2 * 128) := by
  have hlt : a.toNat / 2 < 2 ^ 7 := by omega
  have hor := Nat.shiftLeft_add_eq_or_of_lt hlt (a.toNat % 2)
  have hbit : (a.toNat % 2) <<< 7 % 256 = (a.toNat % 2) <<< 7 := by omega
  apply BitVec.eq_of_toNat_eq
  calc ((a >>> 1) ||| ((a &&& 1) <<< 7)).toNat
      = a.toNat / 2 ||| (a.toNat % 2) <<< 7 := by
        simp [Nat.shiftRight_one, Nat.and_one_is_mod, hbit]
    _ = (a.toNat % 2) <<< 7 + a.toNat / 2 := by rw [Nat.or_comm, hor]
    _ = (BitVec.ofNat 8 (a.toNat / 2 + a.toNat % 2 * 128)).toNat := by rw [BitVec.toNat_ofNat]; omega

/-- Bit 0 of a byte is its parity. -/
theorem byte_getLsbD_zero (a : Byte) : a.getLsbD 0 = decide (a.toNat % 2 = 1) := Nat.testBit_zero a.toNat

theorem rrca8_eq (a : Byte) :
    rrca8 a = (BitVec.ofNat 8 (a.toNat / 2 + a.toNat % 2 * 128),
      pack false false false (decide (a.toNat % 2 = 1))) := by
  rw [rrca8, byte_rotateRight_one, byte_getLsbD_zero]

/-! ## The command -/

theorem exec_rrca (s : State) : exec .rrca s = commitA (rrca8 (s.reg8 .a)) s := rfl

/-- Settles O12: `rrca` commits its kernel's result to A; the kernel moves the parity of A to bit 7 and to C. -/
theorem rrcaRotatesRight : Obligations.RrcaRotatesRight :=
  ⟨rfl, decodeCommand_arity_of_nullary (m := .rrca) rfl, fun s =>
    accEffect_of_commit ((exec_rrca s).trans (by rw [rrca8_eq]))⟩

end Sys2Proof.Machine
end

section
/-! SUPPORT. `nop` and the loads: what a write of an operand pair leaves in the registers, and the texts of `ld` (spec
R160, R161). -/

namespace Sys2Proof.Machine

open Sys2Proof.Laws

/-! ## A write of an operand pair -/

/-- Of the 8-bit registers, a write of an operand pair reaches the pair's two (spec R12). -/
theorem reg8_setReg16_r16Reg (s : State) (rr : R16) (q : Reg8) (v : Word) :
    (s.setReg16 (r16Reg rr) v).reg8 q =
      if q = r16Hi rr then hiByte v else if q = r16Lo rr then loByte v else s.reg8 q := by
  cases rr <;> cases q <;> rfl

theorem r16Lo_ne_r16Hi (rr : R16) : r16Lo rr ≠ r16Hi rr := by cases rr <;> decide

theorem reg8_r16Hi_setReg16 (s : State) (rr : R16) (v : Word) :
    (s.setReg16 (r16Reg rr) v).reg8 (r16Hi rr) = hiByte v := by
  rw [reg8_setReg16_r16Reg, if_pos rfl]

theorem reg8_r16Lo_setReg16 (s : State) (rr : R16) (v : Word) :
    (s.setReg16 (r16Reg rr) v).reg8 (r16Lo rr) = loByte v := by
  rw [reg8_setReg16_r16Reg, if_neg (r16Lo_ne_r16Hi rr), if_pos rfl]

theorem keepsRegs_setReg16 (s : State) (rr : R16) (v : Word) :
    KeepsRegs s (s.setReg16 (r16Reg rr) v) [r16Hi rr, r16Lo rr] := by
  intro q hq
  obtain ⟨hhi, hlo⟩ : q ≠ r16Hi rr ∧ q ≠ r16Lo rr := by simpa using hq
  rw [reg8_setReg16_r16Reg, if_neg hhi, if_neg hlo]

/-- An operand pair is neither PC nor SP, so its write keeps both. -/
theorem keepsPairs_setReg16 (s : State) (rr : R16) (v : Word) :
    KeepsPairs s (s.setReg16 (r16Reg rr) v) [.pc, .sp] := by
  obtain ⟨hpc, hsp, -⟩ := r16Reg_ne rr
  simp [KeepsPairs, reg16_setReg16, hpc.symm, hsp.symm]

/-! ## The texts of `ld` -/

/-- Two classified operands make `ld` the form they fit, on every instance. -/
theorem decodeCommand_ld {dst src : Text} {dstKinds srcKinds : List Kind} {dstVal srcVal : TokenValue} {i : Instr}
    (hdst : classify dst = .known dstKinds dstVal) (hsrc : classify src = .known srcKinds srcVal)
    (hform : ldForm (.known dstKinds dstVal) (.known srcKinds srcVal) = some i) (params : Params) :
    decodeCommand params ⟨"ld".toList, [dst, src]⟩ = .ok i := by
  have hkey : dispatchKey params "ld".toList = some .ld := dispatchKey_text params .ld (by simp [Mnemonic.isExt])
  rw [decodeCommand_of_key hkey, normalise_two]
  simp [hdst, hsrc, hform, firstUnknown, matchForm, Mnemonic.arity]

/-! ## The commands -/

theorem exec_nop (s : State) : exec .nop s = complete .none s := rfl

theorem exec_ldR16N16 (rr : R16) (n : Word) (s : State) :
    exec (.ldR16N16 rr n) s = complete .none (s.setReg16 (r16Reg rr) n) := rfl

/-- Settles O18: the write of the pair puts the word's two bytes in its registers and keeps everything else. -/
theorem loadsAWordIntoAPair : Obligations.LoadsAWordIntoAPair := by
  refine ⟨fun _ _ => rfl, decodeCommand_ld (dst := "BC".toList) (src := "-1".toList) rfl rfl rfl,
    fun rr n s => ?_⟩
  have hrun : Completes (.ldR16N16 rr n) s _ .none := ⟨(exec_ldR16N16 rr n s).trans (complete_eq _ _), rfl⟩
  refine ⟨_, hrun, ?hi, ?lo, keepsRegs_setReg16 s rr n, keepsPairs_setReg16 s rr n, fun _ => rfl, rfl, rfl⟩
  case hi => rw [answered_reg8, reg8_r16Hi_setReg16, toNat_hiByte]
  case lo => rw [answered_reg8, reg8_r16Lo_setReg16, toNat_loByte]

/-- Settles O16: `nop` only answers, and so does a line without a mnemonic. -/
theorem nopChangesNothing : Obligations.NopChangesNothing := by
  refine ⟨rfl, decodeCommand_arity_of_nullary (m := .nop) rfl, fun s => ⟨?effect, fun t ht => ?line⟩⟩
  case effect => exact ⟨_, ⟨(exec_nop s).trans (complete_eq _ _), rfl⟩, rfl, rfl, rfl, rfl⟩
  case line => rw [runLine_blank t s ht, exec_nop]

end Sys2Proof.Machine
end

section
/-! SUPPORT. Every instruction answers, keeps what `Tame` lists, and changes nothing when it errs (spec R17, R22, R206):
first the ways in which a command ends, then all the commands. -/

namespace Sys2Proof.Machine

/-! ## The ends of an instruction -/

/-- A kernel result for A whose flags byte is packed. -/
theorem tame_commitA_pack (s : State) (v : Byte) (z n h c : Bool) : Tame s (commitA (v, pack z n h c) s) :=
  tame_commitA s _ fun _ => pack_low z n h c

/-- A kernel result for an operand register whose flags byte is packed. -/
theorem tame_commitR8_pack (s : State) (r : R8) (v : Byte) (z n h c : Bool) :
    Tame s (commitR8 r (v, pack z n h c) s) :=
  tame_commitR8 s r _ fun _ => pack_low z n h c

/-- An answer without an effect. -/
theorem tame_complete_self (out : Output) (s : State) : Tame s (complete out s) :=
  tame_complete out ⟨rfl, rfl⟩ id rfl id

theorem tame_cpWith (x : Byte) (s : State) : Tame s (cpWith x s) :=
  tame_complete .none (s := s) ⟨rfl, rfl⟩ id (pc_setReg8 s _ _) fun _ => by simp [sub8]

theorem tame_execAddHl (rr : R16) (s : State) : Tame s (execAddHl rr s) :=
  tame_complete .none (s := s) ⟨rfl, rfl⟩ id (by simp [reg16_setReg16]) fun _ => by simp [add16]

theorem tame_execCpl (s : State) : Tame s (execCpl s) := tame_commitA s _ fun hf => by rw [cpl8_low, hf]

/-- F is in no operand pair. -/
theorem f_setReg16_r16Reg (s : State) (rr : R16) (v : Word) : (s.setReg16 (r16Reg rr) v).reg8 .f = s.reg8 .f := by
  cases rr <;> rfl

/-- PC is no operand pair. -/
theorem pc_setReg16_r16Reg (s : State) (rr : R16) (v : Word) : (s.setReg16 (r16Reg rr) v).reg16 .pc = s.reg16 .pc :=
  keepsPairs_setReg16 s rr v .pc (by simp)

theorem tame_setR16 (s : State) (rr : R16) (v : Word) : Tame s (complete .none (s.setReg16 (r16Reg rr) v)) :=
  tame_complete .none ⟨rfl, rfl⟩ id (pc_setReg16_r16Reg s rr v) (by rw [f_setReg16_r16Reg]; exact id)

theorem tame_setSp (s : State) (v : Word) : Tame s (complete .none (s.setReg16 .sp v)) :=
  tame_complete .none ⟨rfl, rfl⟩ id rfl (by rw [reg8_setReg16_sp]; exact id)

theorem tame_execLdR8Ind (dst : R8) (s : State) : Tame s (execLdR8Ind dst s) :=
  tame_withInd s (fun v t => complete .none (t.setReg8 (r8Reg dst) v)) (tame_setR8 s dst)

/-- A store through HL with nothing after it. -/
theorem tame_storeInd_complete (v : Byte) (s : State) : Tame s (storeInd v (complete .none) s) :=
  tame_storeInd s v _ fun _ hm => tame_complete .none ⟨rfl, rfl⟩ hm rfl id

/-- A store through HL that then steps HL. -/
theorem tame_storeInd_setHl (v : Byte) (f : Word → Word) (s : State) :
    Tame s (storeInd v (fun t => complete .none (t.setReg16 .hl (f (t.reg16 .hl)))) s) :=
  tame_storeInd s v _ fun _ hm => tame_complete .none ⟨rfl, rfl⟩ hm rfl id

/-- A load of A through HL that then steps HL. -/
theorem tame_withInd_setHl (f : Word → Word) (s : State) :
    Tame s (withInd (fun v t => complete .none
      ((t.setReg8 .a v).setReg16 .hl (f ((t.setReg8 .a v).reg16 .hl)))) s) :=
  tame_withInd s _ fun _ => tame_complete .none (s := s) ⟨rfl, rfl⟩ id rfl id

theorem tame_execPush (rr : R16) (s : State) : Tame s (execPush rr s) := by
  by_cases hsp : s.reg16 .sp = 1
  · rw [execPush_of_eq rr s hsp]
    exact tame_raise .range s
  · rw [execPush_of_ne rr s hsp]
    exact tame_complete .none ⟨rfl, rfl⟩ (fun hi => wf_writeLE _ hi (pushAddr_bound s hsp)) rfl id

theorem tame_execPop (rr : R16) (s : State) : Tame s (execPop rr s) := by
  by_cases hsp : s.reg16 .sp = 0xFFFF
  · rw [execPop_of_eq rr s hsp]
    exact tame_raise .range s
  · rw [execPop_of_ne rr s hsp]
    exact tame_complete .none ⟨rfl, rfl⟩ id (pc_setReg16_r16Reg s rr _) (by
      rw [reg8_setReg16_sp, f_setReg16_r16Reg]
      exact id)

/-! ## Every instruction -/

/-- Whatever the instruction and the state, the instruction answers and keeps what `Tame` lists. -/
theorem tame_exec (i : Instr) (s : State) : Tame s (exec i s) := by
  cases i with
  | addN8 | addR8 | adcN8 | adcR8 | subN8 | subR8 | sbcN8 | sbcR8 => exact tame_commitA_pack s _ _ _ _ _
  | andN8 | andR8 | xorN8 | xorR8 | orN8 | orR8 | rrca => exact tame_commitA_pack s _ _ _ _ _
  | addInd | adcInd | subInd | sbcInd | andInd | xorInd | orInd =>
    exact tame_withInd s _ fun _ => tame_commitA_pack s _ _ _ _ _
  | incR8 r | decR8 r | rlcR8 r | rrcR8 r | slaR8 r | sraR8 r | swapR8 r | srlR8 r =>
    exact tame_commitR8_pack s r _ _ _ _ _
  | cpN8 | cpR8 => exact tame_cpWith _ s
  | cpInd => exact tame_withInd s _ fun v => tame_cpWith v s
  | addHl rr => exact tame_execAddHl rr s
  | cpl => exact tame_execCpl s
  | ldR16N16 rr n => exact tame_setR16 s rr n
  | ldR8R8 dst | ldR8N8 dst => exact tame_setR8 s dst _
  | ldR8Ind dst => exact tame_execLdR8Ind dst s
  | ldIndR8 | ldIndN8 => exact tame_storeInd_complete _ s
  | ldHliA => exact tame_storeInd_setHl _ (fun hl => hl + 1) s
  | ldHldA => exact tame_storeInd_setHl _ (fun hl => hl - 1) s
  | ldAHli => exact tame_withInd_setHl (fun hl => hl + 1) s
  | ldAHld => exact tame_withInd_setHl (fun hl => hl - 1) s
  | ldSpN16 | ldSpHl => exact tame_setSp s _
  | push rr => exact tame_execPush rr s
  | pop rr => exact tame_execPop rr s
  | r1 addr | r2 addr | r4 addr => exact tame_examine _ addr s
  | x1 offset count | x2 offset count | x4 offset count => exact tame_dump _ offset count s
  | nop | p | print | status => exact tame_complete_self _ s

end Sys2Proof.Machine
end

section
/-! SUPPORT. Every request is answered or refused by name, and an error changes only the answer (spec R206, R207). -/

namespace Sys2Proof.Machine

/-! ## A request that is answered -/

/-- An outcome that answers, keeps the instance and the host's queue, and changes nothing else when it errs. -/
def Answers (s : State) (o : Host.Outcome State Fault Refusal) : Prop :=
  ∃ t x, o = .next t ∧ t.answer = some x ∧ KeepsHost s t ∧ ∀ e, x = .error e → SameBut s t

theorem Tame.answers {s : State} {o : Host.Outcome State Fault Refusal} : Tame s o → Answers s o :=
  fun ⟨t, x, ho, hx, hhost, _, _, _, herr⟩ => ⟨t, x, ho, hx, hhost, herr⟩

theorem answers_raise (e : CmdError) (s : State) : Answers s (raise e s) := (tame_raise e s).answers

theorem answers_complete (out : Output) {s t : State} (h : KeepsHost s t) : Answers s (complete out t) :=
  ⟨_, _, complete_eq out t, rfl, h, fun _ he => nomatch he⟩

/-- When only the answer differs, the next state is the old one with that answer. -/
theorem SameBut.eq_answered {s t : State} {x : Answer} (h : SameBut s t) (hx : t.answer = some x) :
    t = s.answered x := by
  obtain ⟨hregs, hmem, hparams, hpending⟩ := h
  cases t
  subst hregs hmem hparams hpending hx
  rfl

/-! ## The ports -/

/-- A key that names nothing, a value out of range and an access out of bounds are the port's errors; every other call
completes. -/
theorem answers_portCall (call : PortCall) (s : State) : Answers s (portCall call s) := by
  cases call with
  | get8 | get16 | getFlag | setFlag | mget =>
    simp only [portCall, portGet8, portGet16, portGetFlag, portSetFlag, portMget]
    split
    · exact answers_raise .range s
    · exact answers_complete _ ⟨rfl, rfl⟩
  | set8 | set16 =>
    simp only [portCall, portSet8, portSet16]
    split
    · exact answers_raise .range s
    · split
      · exact answers_complete .none ⟨rfl, rfl⟩
      · exact answers_raise .range s
  | mset =>
    simp only [portCall, portMset]
    split
    · split
      · exact answers_raise .range s
      · exact answers_complete .none ⟨rfl, rfl⟩
    · exact answers_raise .range s

/-! ## Every request -/

/-- A request is answered, or it is one of a form that the instance does not adopt (spec R76). -/
def AnswersOrRefuses (s : State) (o : Host.Outcome State Fault Refusal) : Prop :=
  Answers s o ∨ o = .refused .formNotAdopted ∧ s.params.inferredForms = false

theorem runCommand_answersOrRefuses (c : Command) (s : State) : AnswersOrRefuses s (runCommand c s) := by
  cases hdec : decodeCommand s.params c with
  | error e =>
    rw [runCommand_error c s e hdec]
    exact .inl (answers_raise e s)
  | ok i =>
    cases hadopt : formAdopted s.params i with
    | true =>
      rw [runCommand_ok c s i hdec hadopt]
      exact .inl (tame_exec i s).answers
    | false =>
      have hforms : s.params.inferredForms = false := (Bool.or_eq_false_iff.1 hadopt).1
      exact .inr ⟨runCommand_refused c s i hdec hadopt, hforms⟩

theorem runLine_answersOrRefuses (l : Text) (s : State) : AnswersOrRefuses s (runLine l s) := by
  cases hsplit : splitLine l with
  | none =>
    rw [runLine_blank l s hsplit]
    exact .inl (answers_complete .none ⟨rfl, rfl⟩)
  | some c =>
    rw [runLine_command l s c hsplit]
    exact runCommand_answersOrRefuses c s

theorem serve_answersOrRefuses (x : Request) (s : State) : AnswersOrRefuses s (serve x s) := by
  cases x with
  | command c => exact runCommand_answersOrRefuses c s
  | line l => exact runLine_answersOrRefuses l s
  | port call => exact .inl (answers_portCall call s)

/-- What a step with a request presented can do, from the state with the request taken. -/
theorem step_answersOrRefuses {s : State} {x : Request} {rest : List Request} (h : s.pending = x :: rest) :
    AnswersOrRefuses { s with pending := rest } (step s) := by
  rw [step_serve s x rest h]
  exact serve_answersOrRefuses x _

/-! ## The statements -/

/-- Settles O54: a step that goes on has answered, and an error is answered with the old registers and memory. -/
theorem errorsChangeNothing : Obligations.ErrorsChangeNothing := by
  intro s t x rest e hpending hstep herror
  rcases step_answersOrRefuses hpending with ⟨u, a, hu, hanswer, -, hsame⟩ | ⟨hrefused, -⟩
  · obtain rfl : t = u := by simpa [hstep] using hu
    obtain rfl : a = .error e := by simpa [herror] using hanswer.symm
    obtain ⟨hregs, hmem, hparams, -⟩ := hsame e rfl
    exact ⟨hregs, hmem, hparams⟩
  · simp [hstep] at hrefused

/-- Settles O55: where every form is adopted nothing is refused, so each request is answered, and an error leaves the
state with the request taken as it is. -/
theorem everyRequestIsAnswered : Obligations.EveryRequestIsAnswered := by
  intro s x rest hpending hforms
  rcases step_answersOrRefuses hpending with ⟨t, a, ht, hanswer, ⟨hparams, hrest⟩, hsame⟩ | ⟨-, hnone⟩
  · refine ⟨t, a, ht, hanswer, hrest, hparams, ?_⟩
    rintro e rfl
    obtain ⟨hregs, hmem, -⟩ := hsame e rfl
    exact ⟨hregs, hmem, (hsame e rfl).eq_answered hanswer⟩
  · simp [hforms] at hnone

end Sys2Proof.Machine
end

section
/-! SUPPORT. The annex's bytes: each row of its table is read back as the instruction it encodes, and nothing else is
read as that instruction (spec R80 to R82). -/

namespace Sys2Proof.Machine

/-! ## Fields and bytes -/

/-- The 3-bit field of a register, and no other, selects it. -/
theorem r8OfCode_eq_some {k : Nat} {r : R8} : r8OfCode k = some r ↔ k = r8Code r := by
  constructor
  · intro h
    unfold r8OfCode at h
    split at h <;> cases h <;> rfl
  · rintro rfl
    cases r <;> rfl

/-- Of the 3-bit fields only 6, which is `[HL]`, selects no register. -/
theorem r8OfCode_eq_none {k : Nat} (hk : k < 8) : r8OfCode k = none ↔ k = 6 := by
  have fields : ∀ k : Fin 8, r8OfCode k = none ↔ k.val = 6 := by decide
  exact fields ⟨k, hk⟩

/-- The 2-bit field of a pair, and no other, selects it. -/
theorem r16OfCode_eq_some {k : Nat} {rr : R16} : r16OfCode k = some rr ↔ k = r16Code rr := by
  constructor
  · intro h
    unfold r16OfCode at h
    split at h <;> cases h <;> rfl
  · rintro rfl
    cases rr <;> rfl

theorem opByte_eq {op : Byte} {k : Nat} (h : op.toNat = k) : opByte k = op := by
  rw [← h, opByte, BitVec.ofNat_toNat, BitVec.setWidth_eq]

theorem immWord_bytes (n : Word) : immWord (opByte n.toNat) (opByte (n.toNat / 256)) = n := by
  have h : immWord (loByte n) (hiByte n) = n := pair_hiByte_loByte n
  exact h

theorem bytes_immWord (lo hi : Byte) :
    opByte (immWord lo hi).toNat = lo ∧ opByte ((immWord lo hi).toNat / 256) = hi :=
  ⟨loByte_pair hi lo, hiByte_pair hi lo⟩

/-! ## Decoding by the number of bytes -/

theorem decode_one {op : Byte} {i : Instr} (rest : List Byte) (h : decodeOne op = some i) :
    decode (op :: rest) = some (i, rest) := by
  simp [decode, h]

theorem decode_two {op n : Byte} {i : Instr} (rest : List Byte) (h1 : decodeOne op = none) (hcb : op ≠ 0xCB)
    (h2 : decodeTwo op n = some i) : decode (op :: n :: rest) = some (i, rest) := by
  simp only [decode, h1, if_neg hcb, h2]

theorem decode_cb {n : Byte} {i : Instr} (rest : List Byte) (h : decodeCB n = some i) :
    decode (0xCB :: n :: rest) = some (i, rest) := by
  have h1 : decodeOne 0xCB = none := rfl
  simp only [decode, h1, if_true, h]

theorem decode_three {op lo hi : Byte} {i : Instr} (rest : List Byte) (h1 : decodeOne op = none) (hcb : op ≠ 0xCB)
    (h2 : decodeTwo op lo = none) (h3 : decodeThree op (immWord lo hi) = some i) :
    decode (op :: lo :: hi :: rest) = some (i, rest) := by
  simp only [decode, h1, if_neg hcb, h2, h3, Option.map_some]

/-- Bytes that decode are a row of one byte, of two, of two behind 0xCB, or of three. -/
theorem decode_eq_some {bs : List Byte} {i : Instr} {rest : List Byte} (h : decode bs = some (i, rest)) :
    (∃ op, bs = op :: rest ∧ decodeOne op = some i) ∨
    (∃ op n, bs = op :: n :: rest ∧ decodeTwo op n = some i) ∨
    (∃ n, bs = 0xCB :: n :: rest ∧ decodeCB n = some i) ∨
    ∃ op lo hi, bs = op :: lo :: hi :: rest ∧ decodeThree op (immWord lo hi) = some i := by
  unfold decode at h
  split at h
  · cases h
  · rename_i op tail
    split at h
    · rename_i h1
      cases h
      exact .inl ⟨op, rfl, h1⟩
    · split at h
      · cases h
      · rename_i n tail
        split at h
        · rename_i h2
          cases h
          split at h2
          · rename_i hcb
            exact .inr (.inr (.inl ⟨n, by rw [hcb], h2⟩))
          · exact .inr (.inl ⟨op, n, rfl, h2⟩)
        · split at h
          · cases h
          · rename_i m tail
            obtain ⟨j, h3, hj⟩ := Option.map_eq_some_iff.1 h
            cases hj
            exact .inr (.inr (.inr ⟨op, n, m, rfl, h3⟩))

/-! ## From an instruction to its bytes and back -/

/-- Settles O33: an instruction's bytes are a row of its own length, and no shorter row is read before it. -/
theorem bytesOfAnInstructionDecodeToIt : Obligations.BytesOfAnInstructionDecodeToIt := by
  intro i bs rest h
  cases i with
  | addInd | adcInd | subInd | sbcInd | andInd | xorInd | orInd | cpInd | cpl | rrca | nop | ldHliA | ldHldA | ldAHli
  | ldAHld | ldSpHl =>
    cases h
    exact decode_one rest rfl
  | addR8 r | adcR8 r | subR8 r | sbcR8 r | andR8 r | xorR8 r | orR8 r | cpR8 r | incR8 r | decR8 r | ldIndR8 r
  | ldR8Ind r | addHl r | push r | pop r =>
    cases h
    exact decode_one rest (by cases r <;> rfl)
  | ldR8R8 dst src =>
    cases h
    exact decode_one rest (by cases dst <;> cases src <;> rfl)
  | addN8 | adcN8 | subN8 | sbcN8 | andN8 | xorN8 | orN8 | cpN8 | ldIndN8 =>
    cases h
    exact decode_two rest rfl (by decide) rfl
  | ldR8N8 dst n =>
    cases h
    exact decode_two rest (by cases dst <;> rfl) (by cases dst <;> decide) (by cases dst <;> rfl)
  | rlcR8 r | rrcR8 r | slaR8 r | sraR8 r | swapR8 r | srlR8 r =>
    cases h
    exact decode_cb rest (by cases r <;> rfl)
  | ldR16N16 rr n =>
    cases h
    refine decode_three rest (by cases rr <;> rfl) (by cases rr <;> decide) (by cases rr <;> rfl) ?_
    rw [immWord_bytes]
    cases rr <;> rfl
  | ldSpN16 n =>
    cases h
    refine decode_three rest rfl (by decide) rfl ?_
    rw [immWord_bytes]
    rfl
  | p | print | r1 | r2 | r4 | x1 | x2 | x4 | status => cases h

/-! ## From bytes to an instruction and back -/

theorem encode_aluR8 {o : Nat} {r : R8} {i : Instr} (h : aluR8 o r = some i) :
    encode i = some [opByte (0x80 + 8 * o + r8Code r)] := by
  unfold aluR8 at h
  split at h <;> cases h <;> rfl

theorem encode_aluInd {o : Nat} {i : Instr} (h : aluInd o = some i) : encode i = some [opByte (0x86 + 8 * o)] := by
  unfold aluInd at h
  split at h <;> cases h <;> rfl

theorem encode_aluN8 {o : Nat} {n : Byte} {i : Instr} (h : aluN8 o n = some i) :
    encode i = some [opByte (0xC6 + 8 * o), n] := by
  unfold aluN8 at h
  split at h <;> cases h <;> rfl

/-- An opcode byte is its three fields. -/
theorem opByte_fields (op : Byte) : opByte (64 * (op.toNat / 64) + 8 * (op.toNat / 8 % 8) + op.toNat % 8) = op :=
  opByte_eq (by omega)

theorem encode_opByte {i : Instr} {k k' : Nat} (h : encode i = some [opByte k]) (hk : k = k') :
    encode i = some [opByte k'] := hk ▸ h

/-- The bytes of a row whose register is a 3-bit field. -/
theorem encode_of_r8Field {k : Nat} {mk : R8 → Instr} {i : Instr} {bs : Option (List Byte)}
    (h : (r8OfCode k).map mk = some i) (hbs : ∀ r, k = r8Code r → encode (mk r) = bs) : encode i = bs := by
  obtain ⟨r, hr, rfl⟩ := Option.map_eq_some_iff.1 h
  exact hbs r (r8OfCode_eq_some.1 hr)

/-- The bytes of a row whose pair is a 2-bit field. -/
theorem encode_of_r16Field {k : Nat} {mk : R16 → Instr} {i : Instr} {bs : Option (List Byte)}
    (h : (r16OfCode k).map mk = some i) (hbs : ∀ rr, k = r16Code rr → encode (mk rr) = bs) : encode i = bs := by
  obtain ⟨rr, hrr, rfl⟩ := Option.map_eq_some_iff.1 h
  exact hbs rr (r16OfCode_eq_some.1 hrr)

/-- The rows of one byte, in the order of `decodeOne`. -/
theorem encode_decodeOne {op : Byte} {i : Instr} (h : decodeOne op = some i) : encode i = some [op] := by
  have hmid : op.toNat / 8 % 8 < 8 := Nat.mod_lt _ (by decide)
  have hlo : op.toNat % 8 < 8 := Nat.mod_lt _ (by decide)
  rw [← opByte_fields op]
  unfold decodeOne at h
  simp only at h
  generalize op.toNat / 64 = hi, op.toNat / 8 % 8 = mid, op.toNat % 8 = lo at h hmid hlo ⊢
  split at h
  · -- `nop`
    split at h <;> cases h
    subst mid
    rfl
  · -- `add HL, r16`
    split at h
    · exact encode_of_r16Field h fun _ _ => encode_opByte rfl (by omega)
    · cases h
  · -- `ld` through `[HLI]` and `[HLD]`
    split at h <;> cases h <;> rfl
  · -- `inc r8`
    exact encode_of_r8Field h fun _ hr => encode_opByte rfl (by omega)
  · -- `dec r8`
    exact encode_of_r8Field h fun _ hr => encode_opByte rfl (by omega)
  · -- `rrca`, `cpl`
    split at h <;> cases h <;> rfl
  · -- `ld` between registers and `[HL]`
    split at h
    case h_1 hdst hsrc =>
      cases h
      obtain rfl := r8OfCode_eq_some.1 hdst
      obtain rfl := r8OfCode_eq_some.1 hsrc
      exact encode_opByte rfl (by omega)
    case h_2 hdst hsrc =>
      cases h
      obtain rfl := r8OfCode_eq_some.1 hdst
      obtain rfl := (r8OfCode_eq_none hlo).1 hsrc
      exact encode_opByte rfl (by omega)
    case h_3 hdst hsrc =>
      cases h
      obtain rfl := (r8OfCode_eq_none hmid).1 hdst
      obtain rfl := r8OfCode_eq_some.1 hsrc
      exact encode_opByte rfl (by omega)
    case h_4 => cases h
  · -- the accumulator commands on a register or `[HL]`
    split at h
    case h_1 r hr =>
      obtain rfl := r8OfCode_eq_some.1 hr
      exact encode_opByte (encode_aluR8 h) (by omega)
    case h_2 hr =>
      obtain rfl := (r8OfCode_eq_none hlo).1 hr
      exact encode_opByte (encode_aluInd h) (by omega)
  · -- `ld SP, HL` and `pop r16`
    split at h
    · cases h
      subst mid
      rfl
    · split at h
      · exact encode_of_r16Field h fun _ _ => encode_opByte rfl (by omega)
      · cases h
  · -- `push r16`
    split at h
    · exact encode_of_r16Field h fun _ _ => encode_opByte rfl (by omega)
    · cases h
  · cases h

/-- The rows with one immediate byte. -/
theorem encode_decodeTwo {op n : Byte} {i : Instr} (h : decodeTwo op n = some i) : encode i = some [op, n] := by
  have hmid : op.toNat / 8 % 8 < 8 := Nat.mod_lt _ (by decide)
  rw [← opByte_fields op]
  unfold decodeTwo at h
  simp only at h
  generalize op.toNat / 64 = hi, op.toNat / 8 % 8 = mid, op.toNat % 8 = lo at h hmid ⊢
  split at h
  · -- `ld r8, n8` and `ld [HL], n8`
    split at h
    case h_1 r hr =>
      cases h
      obtain rfl := r8OfCode_eq_some.1 hr
      rw [show 64 * 0 + 8 * r8Code r + 6 = 0x06 + 8 * r8Code r by omega]
      rfl
    case h_2 hr =>
      cases h
      obtain rfl := (r8OfCode_eq_none hmid).1 hr
      rfl
  · -- the accumulator commands on an immediate byte
    rw [encode_aluN8 h, show 64 * 3 + 8 * mid + 6 = 0xC6 + 8 * mid by omega]
  · cases h

/-- The rows behind the byte 0xCB. -/
theorem encode_decodeCB {n : Byte} {i : Instr} (h : decodeCB n = some i) : encode i = some [0xCB, n] := by
  rw [← opByte_eq (show n.toNat = 8 * (n.toNat / 8) + n.toNat % 8 by omega)]
  unfold decodeCB at h
  generalize n.toNat / 8 = row, n.toNat % 8 = reg at h ⊢
  split at h
  iterate 6
    · rename_i hr
      cases h
      obtain rfl := r8OfCode_eq_some.1 hr
      rfl
  · cases h

/-- The rows with a 16-bit immediate. -/
theorem encode_decodeThree {op lo hi : Byte} {i : Instr} (h : decodeThree op (immWord lo hi) = some i) :
    encode i = some [op, lo, hi] := by
  obtain ⟨hlo, hhi⟩ := bytes_immWord lo hi
  unfold decodeThree at h
  split at h
  iterate 4
    · rename_i hop
      cases h
      rw [encode, hlo, hhi, ← opByte_eq hop]
      rfl
  · cases h

/-- Settles O34: the bytes that decode are a row of one of the four lengths, and each row is the encoding of the
instruction it is read as. -/
theorem decodedBytesAreTheInstructionsBytes : Obligations.DecodedBytesAreTheInstructionsBytes := by
  intro bs i rest h
  rcases decode_eq_some h with ⟨op, rfl, h1⟩ | ⟨op, n, rfl, h2⟩ | ⟨n, rfl, hcb⟩ | ⟨op, lo, hi, rfl, h3⟩
  · exact ⟨_, encode_decodeOne h1, rfl⟩
  · exact ⟨_, encode_decodeTwo h2, rfl⟩
  · exact ⟨_, encode_decodeCB hcb, rfl⟩
  · exact ⟨_, encode_decodeThree h3, rfl⟩

/-- Settles O35: each word is read by its row's length; the last three begin no row. -/
theorem opcodeMapWordsDecode : Obligations.OpcodeMapWordsDecode :=
  ⟨decode_two [] rfl (by decide) rfl, decode_one [] rfl, decode_one [] rfl, decode_one [] rfl, decode_one [] rfl,
    decode_cb [] rfl, decode_three [] rfl (by decide) rfl rfl, decode_one [] rfl, decode_one [] rfl, decode_one [] rfl,
    decode_one [] rfl, rfl, rfl, rfl⟩

end Sys2Proof.Machine
end

section
/-! SUPPORT. The register port: its answers by whether the key names something and the value is in range (spec R18 to
R20). -/

namespace Sys2Proof.Machine

open Sys2Proof.Laws

/-! ## The 8-bit registers -/

/-- The keys of `get8` and `set8`, each with its register. -/
def reg8Names : List (String × Reg8) :=
  [("A", .a), ("F", .f), ("B", .b), ("C", .c), ("D", .d), ("E", .e), ("H", .h), ("L", .l)]

theorem reg8Key_of_mem : ∀ n ∈ reg8Names, reg8Key n.1.toList = some n.2 := by decide

theorem reg8Key_of_not_mem {key : Text} (h : key ∉ reg8Names.map (·.1.toList)) : reg8Key key = none := by
  simp [reg8Names] at h
  simp [reg8Key, h]

section
variable (s : State) {key : Text} {r : Reg8} {v : Int}

theorem get8_of_key (hk : reg8Key key = some r) :
    portCall (.get8 key) s = .next (s.answered (.success (.value (s.reg8 r).toNat))) := by
  simp only [portCall, portGet8, hk, complete_eq]

theorem get8_of_no_key (hk : reg8Key key = none) :
    portCall (.get8 key) s = .next (s.answered (.error .range)) := by
  simp only [portCall, portGet8, hk, raise_eq]

theorem set8_of_key (hk : reg8Key key = some r) (h0 : -128 ≤ v) (h : v ≤ 255) :
    portCall (.set8 key v) s = .next ((s.setReg8 r (BitVec.ofInt 8 v)).answered (.success .none)) := by
  simp only [portCall, portSet8, hk, h0, h, and_self, if_true, complete_eq]

theorem set8_of_outside (hk : reg8Key key = some r) (h : v < -128 ∨ 255 < v) :
    portCall (.set8 key v) s = .next (s.answered (.error .range)) := by
  have hv : ¬(-128 ≤ v ∧ v ≤ 255) := by omega
  simp only [portCall, portSet8, hk, hv, if_false, raise_eq]

theorem set8_of_no_key (hk : reg8Key key = none) :
    portCall (.set8 key v) s = .next (s.answered (.error .range)) := by
  simp only [portCall, portSet8, hk, raise_eq]

end

/-- Settles O57: a name reads and writes its register, modulo 256, and any other key or value errs. -/
theorem bytePortReadsAndWrites : Obligations.BytePortReadsAndWrites := by
  intro s
  refine ⟨fun n hn => ?_, fun key v hkey => ?_⟩
  · have hk := reg8Key_of_mem n hn
    refine ⟨get8_of_key s hk, fun v h0 h => ⟨_, set8_of_key s hk h0 h, rfl, ?value, keepsRegs_setReg8 s _ _,
      keepsPairs_setReg8 s _ _, fun _ => rfl, rfl, rfl⟩, fun v => set8_of_outside s hk⟩
    case value =>
      rw [answered_reg8, reg8_setReg8_self]
      exact ofInt_eq_iff.1 rfl
  · have hk := reg8Key_of_not_mem hkey
    exact ⟨get8_of_no_key s hk, set8_of_no_key s hk⟩

/-! ## The pairs -/

/-- The keys of `get16` and `set16`, each with its pair. -/
def reg16Names : List (String × Reg16) :=
  [("AF", .af), ("BC", .bc), ("DE", .de), ("HL", .hl), ("PC", .pc), ("SP", .sp)]

theorem reg16Key_of_mem : ∀ n ∈ reg16Names, reg16Key n.1.toList = some n.2 := by decide

theorem reg16Key_of_not_mem {key : Text} (h : key ∉ reg16Names.map (·.1.toList)) : reg16Key key = none := by
  simp [reg16Names] at h
  simp [reg16Key, h]

section
variable (s : State) {key : Text} {rr : Reg16} {v : Int}

theorem get16_of_key (hk : reg16Key key = some rr) :
    portCall (.get16 key) s = .next (s.answered (.success (.value (s.reg16 rr).toNat))) := by
  simp only [portCall, portGet16, hk, complete_eq]

theorem get16_of_no_key (hk : reg16Key key = none) :
    portCall (.get16 key) s = .next (s.answered (.error .range)) := by
  simp only [portCall, portGet16, hk, raise_eq]

theorem set16_of_key (hk : reg16Key key = some rr) (h0 : -32768 ≤ v) (h : v ≤ 65535) :
    portCall (.set16 key v) s = .next ((s.setReg16 rr (BitVec.ofInt 16 v)).answered (.success .none)) := by
  simp only [portCall, portSet16, hk, h0, h, and_self, if_true, complete_eq]

theorem set16_of_outside (hk : reg16Key key = some rr) (h : v < -32768 ∨ 65535 < v) :
    portCall (.set16 key v) s = .next (s.answered (.error .range)) := by
  have hv : ¬(-32768 ≤ v ∧ v ≤ 65535) := by omega
  simp only [portCall, portSet16, hk, hv, if_false, raise_eq]

theorem set16_of_no_key (hk : reg16Key key = none) :
    portCall (.set16 key v) s = .next (s.answered (.error .range)) := by
  simp only [portCall, portSet16, hk, raise_eq]

end

/-- Settles O58: a name reads and writes its pair, modulo 65536, and any other key or value errs. -/
theorem pairPortReadsAndWrites : Obligations.PairPortReadsAndWrites := by
  intro s
  refine ⟨fun n hn => ?_, fun key v hkey => ?_⟩
  · have hk := reg16Key_of_mem n hn
    refine ⟨get16_of_key s hk, fun v h0 h => ⟨_, set16_of_key s hk h0 h, rfl, ?value, fun rr hne => ?kept,
      fun _ => rfl, rfl, rfl⟩, fun v => set16_of_outside s hk⟩
    case value =>
      rw [answered_reg16, reg16_setReg16_self]
      exact ofInt_eq_iff.1 rfl
    case kept => rw [answered_reg16, reg16_setReg16, if_neg hne]
  · have hk := reg16Key_of_not_mem hkey
    exact ⟨get16_of_no_key s hk, set16_of_no_key s hk⟩

/-! ## The flags -/

/-- The keys of `getflag` and `setflag`, each with its bit of F. -/
def flagNames : List (String × Nat) := [("Z", 7), ("N", 6), ("H", 5), ("C", 4)]

theorem flagKey_of_mem : ∀ n ∈ flagNames, ∃ x ∈ [Flag.z, .n, .h, .c],
    flagKey n.1.toList = some x ∧ flagBit x = n.2 := by decide

theorem flagKey_of_not_mem {key : Text} (h : key ∉ flagNames.map (·.1.toList)) : flagKey key = none := by
  simp [flagNames] at h
  simp [flagKey, h]

/-- The mask of a flag is its one bit. -/
theorem getLsbD_flagMask (x : Flag) : ∀ k < 8, (flagMask x).getLsbD k = decide (k = flagBit x) := by
  cases x <;> decide

/-- Setting or clearing a flag changes its bit and no other. -/
theorem getLsbD_withFlag (f : Byte) (x : Flag) (b : Bool) {k : Nat} (hk : k < 8) :
    (withFlag f x b).getLsbD k = if k = flagBit x then b else f.getLsbD k := by
  have hmask := getLsbD_flagMask x k hk
  have hset : (if b then flagMask x else 0).getLsbD k = (b && decide (k = flagBit x)) := by
    cases b with
    | false => exact BitVec.getLsbD_zero
    | true => exact hmask
  rw [withFlag, BitVec.getLsbD_or, BitVec.getLsbD_and, BitVec.getLsbD_not, hset, hmask]
  by_cases hbit : k = flagBit x <;> simp [hbit, hk]

section
variable (s : State) {key : Text} {x : Flag} {b : Bool}

theorem getFlag_of_key (hk : flagKey key = some x) :
    portCall (.getFlag key) s = .next (s.answered (.success (.flag ((s.reg8 .f).getLsbD (flagBit x))))) := by
  simp only [portCall, portGetFlag, hk, complete_eq, State.flag, flagOf]

theorem getFlag_of_no_key (hk : flagKey key = none) :
    portCall (.getFlag key) s = .next (s.answered (.error .range)) := by
  simp only [portCall, portGetFlag, hk, raise_eq]

theorem setFlag_of_key (hk : flagKey key = some x) :
    portCall (.setFlag key b) s = .next ((s.setReg8 .f (withFlag (s.reg8 .f) x b)).answered (.success .none)) := by
  simp only [portCall, portSetFlag, hk, complete_eq]

theorem setFlag_of_no_key (hk : flagKey key = none) :
    portCall (.setFlag key b) s = .next (s.answered (.error .range)) := by
  simp only [portCall, portSetFlag, hk, raise_eq]

end

/-- Settles O59: a flag's name reads and writes its one bit of F, and any other key errs. -/
theorem flagPortKeepsTheOtherBits : Obligations.FlagPortKeepsTheOtherBits := by
  intro s
  refine ⟨fun n hn => ?_, fun key b hkey => ?_⟩
  · obtain ⟨x, -, hk, hbit⟩ := flagKey_of_mem n hn
    rw [← hbit]
    refine ⟨getFlag_of_key s hk, fun b => ⟨_, setFlag_of_key s hk, rfl, fun k hlt => ?bits,
      keepsRegs_setReg8 s _ _, keepsPairs_setReg8 s _ _, fun _ => rfl, rfl, rfl⟩⟩
    case bits => rw [answered_reg8, reg8_setReg8_self, getLsbD_withFlag _ _ _ hlt]
  · have hk := flagKey_of_not_mem hkey
    exact ⟨getFlag_of_no_key s hk, setFlag_of_no_key s hk⟩

end Sys2Proof.Machine
end

section
/-! SUPPORT. What every step keeps: memory in its canonical form, and of a command or a line also PC and a zero low
nibble of F (spec R17, R22). -/

namespace Sys2Proof.Machine

open Sys2Proof.Laws

/-! ## Commands and lines -/

/-- A command that is not refused keeps what every instruction keeps. -/
theorem runCommand_tame {c : Command} {s t : State} (h : runCommand c s = .next t) : Tame s (runCommand c s) := by
  cases hdec : decodeCommand s.params c with
  | error e =>
    rw [runCommand_error c s e hdec]
    exact tame_raise e s
  | ok i =>
    cases hadopt : formAdopted s.params i with
    | true =>
      rw [runCommand_ok c s i hdec hadopt]
      exact tame_exec i s
    | false =>
      rw [runCommand_refused c s i hdec hadopt] at h
      cases h

theorem runLine_tame {l : Text} {s t : State} (h : runLine l s = .next t) : Tame s (runLine l s) := by
  cases hsplit : splitLine l with
  | none =>
    rw [runLine_blank l s hsplit]
    exact tame_complete_self .none s
  | some c =>
    rw [runLine_command l s c hsplit] at h ⊢
    exact runCommand_tame h

theorem serve_tame {x : Request} {s t : State} (hx : isCommandRequest x = true) (h : serve x s = .next t) :
    Tame s (serve x s) := by
  cases x with
  | command c => exact runCommand_tame h
  | line l => exact runLine_tame h
  | port call => cases hx

/-- What a tame outcome keeps, of the state it goes on with. -/
theorem Tame.keeps {s t : State} (h : Tame s (.next t)) :
    (s.Inv → t.Inv) ∧ t.reg16 .pc = s.reg16 .pc ∧
      ((s.reg8 .f).toNat % 16 = 0 → (t.reg8 .f).toNat % 16 = 0) := by
  obtain ⟨_, _, ht, _, _, hinv, hpc, hlow, _⟩ := h
  cases ht
  exact ⟨hinv, hpc, hlow⟩

/-! ## The ports -/

/-- A port call that goes on keeps memory, or is a store inside the address space. -/
theorem portCall_mem {call : PortCall} {s t : State} (h : portCall call s = .next t) :
    t.mem = s.mem ∨ ∃ w addr v, memWrite s.mem addr w v = some t.mem := by
  cases call with
  | get8 | get16 | getFlag | setFlag | mget =>
    simp only [portCall, portGet8, portGet16, portGetFlag, portSetFlag, portMget] at h
    split at h <;> cases h <;> exact .inl rfl
  | set8 | set16 =>
    simp only [portCall, portSet8, portSet16] at h
    split at h
    · cases h
      exact .inl rfl
    · split at h <;> cases h <;> exact .inl rfl
  | mset w addr v =>
    simp only [portCall, portMset] at h
    split at h
    · split at h
      · cases h
        exact .inl rfl
      · rename_i m hm
        cases h
        exact .inr ⟨w, addr, _, hm⟩
    · cases h
      exact .inl rfl

theorem inv_portCall {call : PortCall} {s t : State} (hs : s.Inv) (h : portCall call s = .next t) : t.Inv := by
  rcases portCall_mem h with hmem | ⟨w, addr, v, hmem⟩
  · unfold State.Inv
    rwa [hmem]
  · exact wf_memWrite hs hmem

/-! ## The statements -/

/-- Settles O50: only a store of the memory port changes memory outside a command, and it stays inside the address
space. -/
theorem stepKeepsCanonicalMemory : Obligations.StepKeepsCanonicalMemory := by
  intro s t hs hstep
  cases hpending : s.pending with
  | nil =>
    cases (step_idle s hpending).symm.trans hstep
    exact hs
  | cons x rest =>
    rw [step_serve s x rest hpending] at hstep
    cases x with
    | port call => exact inv_portCall (s := { s with pending := rest }) hs hstep
    | command | line => exact (hstep ▸ serve_tame rfl hstep).keeps.1 hs

/-- Settles O52: each instruction packs its flags, or keeps the low nibble of F. -/
theorem commandsKeepTheLowNibbleZero : Obligations.CommandsKeepTheLowNibbleZero := by
  intro i s t hlow h
  exact (h ▸ tame_exec i s).keeps.2.2 hlow

/-- Settles O53: no instruction writes PC, and no operand text names it; the register port does. -/
theorem noCommandTouchesPc : Obligations.NoCommandTouchesPc := by
  have hk : reg16Key "PC".toList = some .pc := reg16Key_of_mem ("PC", .pc) (by decide)
  refine ⟨fun s t x rest hpending hx hstep => ?command, by decide, fun s => ⟨get16_of_key s hk, fun v => ?port⟩⟩
  case command =>
    rw [step_serve s x rest hpending] at hstep
    exact (hstep ▸ serve_tame hx hstep).keeps.2.1
  case port =>
    have hv : BitVec.ofInt 16 (v.toNat : Int) = v := by simp
    refine ⟨_, set16_of_key s hk (by omega) (by omega), ?_⟩
    rw [answered_reg16, reg16_setReg16_self, hv]

end Sys2Proof.Machine
end

section
/-! SUPPORT. Decoding by the ranks of spec R209: the mnemonic, the operand count, the leftmost unknown operand, the
form; and what a step makes of it. -/

namespace Sys2Proof.Machine

open Sys2Proof.Laws

/-! ## The mnemonic -/

/-- The spellings of spec R71. -/
def baseKeys : List Text :=
  ["adc", "add", "cp", "cpl", "dec", "inc", "ld", "nop", "p", "print", "pop", "push", "r/1", "r/2", "r/4", "rrca",
    "sbc", "srl", "status", "sub", "swap", "x/1", "x/2", "x/4", "xor"].map String.toList

/-- The spellings of spec R84. -/
def extKeys : List Text := ["and", "or", "rlc", "rrc", "sla", "sra"].map String.toList

theorem text_mem_baseKeys {m : Mnemonic} : m.text ∈ baseKeys ↔ m.isExt = false := by cases m <;> decide

theorem text_mem_extKeys {m : Mnemonic} : m.text ∈ extKeys ↔ m.isExt = true := by cases m <;> decide

/-- Every spelling of the two lists is a mnemonic's. -/
theorem exists_text_eq {t : Text} (h : t ∈ baseKeys ++ extKeys) : ∃ m : Mnemonic, m.text = t := by
  have spelled : ∀ t ∈ baseKeys ++ extKeys, ∃ m ∈ Mnemonic.all, m.text = t := by decide
  obtain ⟨m, -, hm⟩ := spelled t h
  exact ⟨m, hm⟩

theorem decodeCommand_unknownMnemonic {params : Params} {c : Command} :
    decodeCommand params c = .error .unknownMnemonic ↔ dispatchKey params c.mnemonic = none := by
  cases hk : dispatchKey params c.mnemonic with
  | none => simp [decodeCommand, hk]
  | some m =>
    rw [decodeCommand_of_key hk]
    split
    · simp
    · split
      · simp
      · split <;> simp

/-- Settles O43: a spelling is no key exactly when it is none of R71's and, where `EXT_OPS` is on, none of R84's. -/
theorem unknownMnemonicExactlyWithoutAKey : Obligations.UnknownMnemonicExactlyWithoutAKey := by
  intro params c
  rw [decodeCommand_unknownMnemonic, dispatchKey_eq_none]
  change _ ↔ c.mnemonic.map lowerChar ∉ baseKeys ∧ (params.extOps = true → c.mnemonic.map lowerChar ∉ extKeys)
  constructor
  · refine fun h => ⟨fun hbase => ?_, fun hext hmem => ?_⟩
    · obtain ⟨m, hm⟩ := exists_text_eq (List.mem_append_left _ hbase)
      rw [← hm, text_mem_baseKeys, (h m hm).1] at hbase
      cases hbase
    · obtain ⟨m, hm⟩ := exists_text_eq (List.mem_append_right _ hmem)
      simp [(h m hm).2] at hext
  · rintro ⟨hbase, hext⟩ m hm
    rw [← hm, text_mem_baseKeys, Bool.not_eq_false] at hbase
    rw [← hm, text_mem_extKeys] at hext
    exact ⟨hbase, by simpa [hbase] using hext⟩

/-! ## The operands -/

section
variable {params : Params} {c : Command} {m : Mnemonic}

theorem decodeCommand_unknownOperand {raw : Text} (hk : dispatchKey params c.mnemonic = some m)
    (hc : c.operands.length ∈ acceptedCounts m) (hu : firstUnknown (c.operands.map classify) = some raw) :
    decodeCommand params c = .error (.unknownOperand raw) := by
  rw [← firstUnknown_normalise m] at hu
  simp [decodeCommand_of_key hk, (normalise_length m _).2 hc, hu]

theorem decodeCommand_matched {i : Instr} (hk : dispatchKey params c.mnemonic = some m)
    (hc : c.operands.length ∈ acceptedCounts m) (hu : firstUnknown (c.operands.map classify) = none)
    (hm : matchForm m ((normalise m c.operands).map classify) = some i) : decodeCommand params c = .ok i := by
  rw [← firstUnknown_normalise m] at hu
  simp [decodeCommand_of_key hk, (normalise_length m _).2 hc, hu, hm]

theorem decodeCommand_kindMismatch (hk : dispatchKey params c.mnemonic = some m)
    (hc : c.operands.length ∈ acceptedCounts m) (hu : firstUnknown (c.operands.map classify) = none)
    (hm : matchForm m ((normalise m c.operands).map classify) = none) :
    decodeCommand params c = .error .kindMismatch := by
  rw [← firstUnknown_normalise m] at hu
  simp [decodeCommand_of_key hk, (normalise_length m _).2 hc, hu, hm]

/-- With an accepted count, a command has an unknown operand, or is of a form, or is of none. -/
theorem decodeCommand_cases (hk : dispatchKey params c.mnemonic = some m)
    (hc : c.operands.length ∈ acceptedCounts m) :
    (∃ raw, firstUnknown (c.operands.map classify) = some raw ∧
      decodeCommand params c = .error (.unknownOperand raw)) ∨
    (firstUnknown (c.operands.map classify) = none ∧
      ((∃ i, decodeCommand params c = .ok i) ∨ decodeCommand params c = .error .kindMismatch)) := by
  cases hu : firstUnknown (c.operands.map classify) with
  | some raw => exact .inl ⟨raw, rfl, decodeCommand_unknownOperand hk hc hu⟩
  | none =>
    refine .inr ⟨rfl, ?_⟩
    cases hm : matchForm m ((normalise m c.operands).map classify) with
    | some i => exact .inl ⟨i, decodeCommand_matched hk hc hu hm⟩
    | none => exact .inr (decodeCommand_kindMismatch hk hc hu hm)

end

/-- Settles O44: only a wrong count is an ArityError, and it is found before the operands are classified. -/
theorem arityErrorExactlyOnAWrongCount : Obligations.ArityErrorExactlyOnAWrongCount := by
  intro params c m hk
  by_cases hc : c.operands.length ∈ acceptedCounts m
  · rcases decodeCommand_cases hk hc with ⟨_, -, h⟩ | ⟨-, ⟨_, h⟩ | h⟩ <;> simp [h, hc]
  · exact iff_of_true (decodeCommand_arity hk hc) hc

/-- The first unknown token's text stands behind known ones. -/
theorem firstUnknown_classify_eq_some {ops : List Text} {raw : Text} :
    firstUnknown (ops.map classify) = some raw ↔
      ∃ before after, ops = before ++ raw :: after ∧ classify raw = .unknown raw ∧ ∀ x ∈ before, Classified x := by
  induction ops with
  | nil => simp [firstUnknown]
  | cons x rest ih =>
    cases hx : classify x with
    | known ks v =>
      simp only [List.map_cons, hx, firstUnknown]
      constructor
      · intro h
        obtain ⟨before, after, rfl, hraw, hbefore⟩ := ih.1 h
        exact ⟨x :: before, after, rfl, hraw, List.forall_mem_cons.2 ⟨⟨ks, v, hx⟩, hbefore⟩⟩
      · rintro ⟨before, after, he, hraw, hbefore⟩
        cases before with
        | nil =>
          cases he
          cases hx.symm.trans hraw
        | cons y before =>
          cases he
          exact ih.2 ⟨before, after, rfl, hraw, (List.forall_mem_cons.1 hbefore).2⟩
    | unknown raw' =>
      obtain rfl := classify_unknown hx
      simp only [List.map_cons, hx, firstUnknown]
      constructor
      · intro h
        cases h
        exact ⟨[], rest, rfl, hx, by simp⟩
      · rintro ⟨before, after, he, hraw, hbefore⟩
        cases before with
        | nil =>
          cases he
          rfl
        | cons y before =>
          cases he
          obtain ⟨ks, v, hknown⟩ := (List.forall_mem_cons.1 hbefore).1
          cases hx.symm.trans hknown

theorem firstUnknown_classify_eq_none {ops : List Text} :
    firstUnknown (ops.map classify) = none ↔ ∀ x ∈ ops, Classified x := by
  induction ops with
  | nil => simp [firstUnknown]
  | cons x rest ih =>
    cases hx : classify x with
    | known ks v => simp [firstUnknown, hx, ih, Classified]
    | unknown raw => simp [firstUnknown, hx, Classified]

/-- A text that is neither a literal nor a symbolic form is unknown (spec R68). -/
theorem classify_of_no_form {raw : Text} (hl : literal (raw.map upperChar) = none)
    (hs : raw.map upperChar ∉ symbolForms.map (·.1)) : classify raw = .unknown raw := by
  have hsym : symbolOf (raw.map upperChar) = none := by
    cases h : symbolOf (raw.map upperChar) with
    | none => rfl
    | some row => exact absurd (List.mem_map_of_mem (symbolOf_eq_some.1 h)) hs
  simp [classify, hl, hsym]

/-- Settles O45: past the count, the tokens are searched from the left, and the form is looked at last. -/
theorem leftmostUnknownOperandIsReported : Obligations.LeftmostUnknownOperandIsReported := by
  refine ⟨fun raw => classify_of_no_form, by decide, fun params c m raw hk hc => ?_⟩
  rw [← firstUnknown_classify_eq_some]
  rcases decodeCommand_cases hk hc with ⟨_, hu, h⟩ | ⟨hu, ⟨_, h⟩ | h⟩ <;> simp [h, hu]

/-! ## Steps -/

/-- Settles O40: a line is the command it splits into, and a decoded and adopted command is its instruction. -/
theorem stepRunsTheDecodedInstruction : Obligations.StepRunsTheDecodedInstruction := by
  intro s x c rest i hpending hx hdec hadopt
  have hrun := runCommand_ok c { s with pending := rest } i hdec hadopt
  rw [step_serve s x rest hpending]
  rcases hx with rfl | ⟨t, rfl, hsplit⟩
  · exact hrun
  · exact (runLine_command t _ c hsplit).trans hrun

/-- Settles O41: the error of decoding is raised on the state with the request taken. -/
theorem stepAnswersADecodingError : Obligations.StepAnswersADecodingError := by
  intro s c rest e hpending hdec
  have hrun := runCommand_error c { s with pending := rest } e hdec
  rw [step_serve s _ rest hpending]
  exact ⟨_, hrun.trans (raise_eq e _), rfl, rfl, rfl, rfl, rfl⟩

/-- Settles O49: without the inferred forms, a form is adopted exactly when it is settled. -/
theorem unadoptedFormsAreRefused : Obligations.UnadoptedFormsAreRefused := by
  intro s c rest i hpending hforms hdec
  rw [step_serve s _ rest hpending]
  refine ⟨fun hgrade => runCommand_refused c { s with pending := rest } i hdec ?_,
    fun hgrade => runCommand_ok c { s with pending := rest } i hdec ?_⟩ <;> simp [formAdopted, hforms, hgrade]

/-! ## Blank lines -/

theorem stripComment_of_blank {space : Text} (h : ∀ x ∈ space, isBlank x = true) (comment : Text) :
    stripComment space = space ∧ stripComment (space ++ ';' :: comment) = space := by
  have hne : ∀ x ∈ space, (x != ';') = true := by
    intro x hx
    have hb := h x hx
    simp only [isBlank, Bool.or_eq_true, beq_iff_eq] at hb
    rcases hb with rfl | rfl <;> decide
  constructor
  · exact List.takeWhile_eq_self_iff.2 hne
  · simp [stripComment, List.takeWhile_append_of_pos hne]

theorem trim_of_blank {space : Text} (h : ∀ x ∈ space, isBlank x = true) : trim space = [] := by
  simp [trim, List.dropWhile_eq_nil_iff.2 h]

/-- Settles O42: nothing is left of such a line after its comment and its white space. -/
theorem blankLineIsANoOp : Obligations.BlankLineIsANoOp := by
  intro s t rest space comment hpending hspace ht
  obtain ⟨hplain, hcomment⟩ := stripComment_of_blank hspace comment
  have hstrip : stripComment t = space := by
    rcases ht with rfl | rfl
    · exact hplain
    · exact hcomment
  have hsplit : splitLine t = none := by simp [splitLine, hstrip, trim_of_blank hspace]
  rw [step_serve s _ rest hpending]
  exact runLine_blank t _ hsplit

end Sys2Proof.Machine
end

section
/-! SUPPORT. The forms of spec R76 both ways: a command decodes to an instruction exactly when its classified operands
fit the instruction's places. -/

namespace Sys2Proof.Machine

open Sys2Proof.Laws

/-! ## Symbolic operands -/

/-- The upper-case text of a symbolic form (spec R67). -/
def symbolText : Symbol → Text
  | .r8 r => r.text
  | .r16 rr => rr.text
  | .sp => textSp
  | .atHL => textAtHL
  | .atHLI => textAtHLI
  | .atHLD => textAtHLD

theorem upper_symbolText (y : Symbol) : (symbolText y).map upperChar = symbolText y := by
  cases y with
  | r8 r => cases r <;> rfl
  | r16 rr => cases rr <;> rfl
  | sp | atHL | atHLI | atHLD => rfl

theorem classify_symbolText (y : Symbol) : ∃ ks, classify (symbolText y) = .known ks (.sym y) := by
  cases y with
  | r8 r => cases r <;> exact ⟨_, rfl⟩
  | r16 rr => cases rr <;> exact ⟨_, rfl⟩
  | sp | atHL | atHLI | atHLD => exact ⟨_, rfl⟩

/-- A text in the spelling of a symbolic form, letter case aside, has that form's token. -/
theorem classify_of_upper {x : Text} {y : Symbol} (h : x.map upperChar = symbolText y) :
    classify x = classify (symbolText y) := by
  obtain ⟨ks, hy⟩ := classify_symbolText y
  rw [hy, classify_known_of_upper_eq ((upper_symbolText y).trans h.symm) hy]

/-- A symbolic token's text is in the spelling of its form. -/
theorem upper_of_sym {x : Text} {ks : List Kind} {y : Symbol} (h : classify x = .known ks (.sym y)) :
    x.map upperChar = symbolText y := by
  have spelled : ∀ row ∈ symbolForms, row.1 = symbolText row.2.2 := by decide
  exact spelled _ ((symbolsHaveTheirKinds x ks y).1 h)

/-- The kinds that one operand text only has, each with its form (spec R67). -/
def fixedKinds : List (Kind × Symbol) :=
  [(.accA, .r8 .a), (.pairHL, .r16 .hl), (.regSP, .sp), (.atHL, .atHL), (.atHLI, .atHLI), (.atHLD, .atHLD)]

/-- An operand of such a kind is in the spelling of its form. -/
theorem upper_of_fixed {k : Kind} {y : Symbol} {x : Text} (hk : (k, y) ∈ fixedKinds)
    (h : (Operand.fixed k).Fits (classify x)) : x.map upperChar = symbolText y := by
  have spelled : ∀ row ∈ symbolForms, ∀ p ∈ fixedKinds, p.1 ∈ row.2.1 → row.1 = symbolText p.2 := by decide
  have symbolic : ∀ p ∈ fixedKinds, p.1 ∉ [Kind.u3, .e8, .n8, .n16] := by decide
  obtain ⟨ks, v, hx, hmem⟩ := h
  rcases classify_eq_known hx with ⟨n, rfl, -⟩ | ⟨z, rfl, -, hrow⟩
  · have hno := (classify_int hx).2.2 k (symbolic _ hk)
    rw [has_iff_fits.2 ⟨ks, _, hx, hmem⟩] at hno
    cases hno
  · exact spelled _ (symbolOf_eq_some.1 hrow) _ hk hmem

theorem classify_of_fixed {k : Kind} {y : Symbol} {x : Text} (hk : (k, y) ∈ fixedKinds)
    (h : (Operand.fixed k).Fits (classify x)) : classify x = classify (symbolText y) :=
  classify_of_upper (upper_of_fixed hk h)

theorem classify_of_reg8 {r : R8} {x : Text} (h : (Operand.reg8 r).Fits (classify x)) :
    classify x = classify r.text := by
  obtain ⟨ks, hx, -⟩ := h
  exact classify_of_upper (y := .r8 r) (upper_of_sym hx)

theorem classify_of_reg16 {rr : R16} {x : Text} (h : (Operand.reg16 rr).Fits (classify x)) :
    classify x = classify rr.text := by
  obtain ⟨ks, hx, -⟩ := h
  exact classify_of_upper (y := .r16 rr) (upper_of_sym hx)

/-! ## Forms in a row -/

theorem firstForm_cons (x : Option Instr) (l : List (Option Instr)) : firstForm (x :: l) = x.or (firstForm l) := by
  cases x <;> rfl

theorem firstForm_nil : firstForm [] = none := rfl

theorem formOf2_none_right {α β : Type} (mk : α → β → Instr) (x : Option α) : formOf2 mk x none = none := by
  cases x <;> rfl

/-! ## The forms of the accumulator commands -/

section
variable {onN8 : Byte → Instr} {onR8 : R8 → Instr} {onInd : Instr} {d : Token} {x : Text}

theorem accForm_n8 {n : Byte} (hd : (Operand.fixed .accA).Fits d) (hx : (Operand.imm8 n).Fits (classify x)) :
    accForm onN8 onR8 onInd d (classify x) = some (onN8 n) := by
  have hn := n8?_iff_fits.2 hx
  obtain ⟨ks, v, hint, -⟩ := hx
  simp [accForm, firstForm, has_iff_fits.2 hd, (classify_int hint).1, hn]

theorem accForm_r8 {r : R8} (hd : (Operand.fixed .accA).Fits d) (hx : (Operand.reg8 r).Fits (classify x)) :
    accForm onN8 onR8 onInd d (classify x) = some (onR8 r) := by
  simp [accForm, firstForm, has_iff_fits.2 hd, r8?_iff_fits.2 hx]

theorem accForm_ind (hd : (Operand.fixed .accA).Fits d) (hx : (Operand.fixed .atHL).Fits (classify x)) :
    accForm onN8 onR8 onInd d (classify x) = some onInd := by
  rw [accForm, if_pos (has_iff_fits.2 hd), classify_of_fixed (y := .atHL) (by decide) hx]
  rfl

end

theorem addForm_of_accForm {d x : Token} {i : Instr} (h : accForm .addN8 .addR8 .addInd d x = some i) :
    addForm d x = some i := by
  simp [addForm, h, firstForm]

theorem addForm_hl {d x : Text} {rr : R16} (hd : (Operand.fixed .pairHL).Fits (classify d))
    (hx : (Operand.reg16 rr).Fits (classify x)) : addForm (classify d) (classify x) = some (.addHl rr) := by
  rw [classify_of_fixed (y := .r16 .hl) (by decide) hd, addForm, r16?_iff_fits.2 hx]
  rfl

/-! ## The forms of `ld` -/

/-- The forms that `ld` has for a literal: a literal is no register and has no fixed kind. -/
theorem ldForm_literal {x : Text} {ks : List Kind} {v : Int} (d : Token) (hx : classify x = .known ks (.int v)) :
    ldForm d (classify x) = firstForm
      [formOf2 .ldR8N8 d.r8? (classify x).n8?,
       if d.has .atHL then (classify x).n8?.map .ldIndN8 else none,
       formOf2 .ldR16N16 d.r16? (classify x).n16?,
       if d.has .regSP then (classify x).n16?.map .ldSpN16 else none] := by
  obtain ⟨hr8, -, hkinds⟩ := classify_int hx
  have hno : ∀ k ∈ [Kind.atHL, .atHLI, .atHLD, .accA, .pairHL], (classify x).has k = false :=
    fun k hk => hkinds k (by revert k; decide)
  simp only [List.forall_mem_cons] at hno
  obtain ⟨hHL, hHLI, hHLD, hA, hpair, -⟩ := hno
  simp [ldForm, firstForm_cons, firstForm_nil, formOf2_none_right, formIf, hr8, hHL, hHLI, hHLD, hA, hpair]

/-- A form of `ld` that has one text for each operand. -/
theorem ldForm_fixed {k l : Kind} {y z : Symbol} {i : Instr} {d x : Text} (hk : (k, y) ∈ fixedKinds)
    (hl : (l, z) ∈ fixedKinds) (h : List.Forall₂ Operand.Fits [.fixed k, .fixed l] [classify d, classify x])
    (hform : ldForm (classify (symbolText y)) (classify (symbolText z)) = some i) :
    ldForm (classify d) (classify x) = some i := by
  obtain ⟨hd, hx, -⟩ : _ ∧ _ ∧ List.Forall₂ Operand.Fits [] [] := by simpa using h
  rw [classify_of_fixed hk hd, classify_of_fixed hl hx, hform]

/-- Tokens that fit a form of `ld` are of that form. -/
theorem ldForm_of_fits {i : Instr} {d x : Text} (hi : i.mnemonic = .ld)
    (h : List.Forall₂ Operand.Fits (formOperands i) [classify d, classify x]) :
    ldForm (classify d) (classify x) = some i := by
  have two : ∀ {o₁ o₂ : Operand}, List.Forall₂ Operand.Fits [o₁, o₂] [classify d, classify x] →
      o₁.Fits (classify d) ∧ o₂.Fits (classify x) := by simp
  cases i with
  | ldR8R8 dst src =>
    obtain ⟨hd, hx⟩ := two h
    simp [ldForm, firstForm, formOf2, r8?_iff_fits.2 hd, r8?_iff_fits.2 hx]
  | ldR8N8 dst n =>
    obtain ⟨hd, hx⟩ := two h
    have hn := n8?_iff_fits.2 hx
    obtain ⟨ks, v, hint, -⟩ := hx
    rw [ldForm_literal _ hint, r8?_iff_fits.2 hd, hn]
    rfl
  | ldR8Ind dst =>
    obtain ⟨hd, hx⟩ := two h
    rw [classify_of_reg8 hd, classify_of_fixed (y := .atHL) (by decide) hx]
    cases dst <;> rfl
  | ldIndR8 r =>
    obtain ⟨hd, hx⟩ := two h
    rw [classify_of_fixed (y := .atHL) (by decide) hd, classify_of_reg8 hx]
    cases r <;> rfl
  | ldIndN8 n =>
    obtain ⟨hd, hx⟩ := two h
    have hn := n8?_iff_fits.2 hx
    obtain ⟨ks, v, hint, -⟩ := hx
    rw [ldForm_literal _ hint, classify_of_fixed (y := .atHL) (by decide) hd, hn]
    rfl
  | ldHliA => exact ldForm_fixed (y := .atHLI) (z := .r8 .a) (by decide) (by decide) h rfl
  | ldHldA => exact ldForm_fixed (y := .atHLD) (z := .r8 .a) (by decide) (by decide) h rfl
  | ldAHli => exact ldForm_fixed (y := .r8 .a) (z := .atHLI) (by decide) (by decide) h rfl
  | ldAHld => exact ldForm_fixed (y := .r8 .a) (z := .atHLD) (by decide) (by decide) h rfl
  | ldR16N16 rr n =>
    obtain ⟨hd, hx⟩ := two h
    have hn := n16?_iff_fits.2 hx
    obtain ⟨ks, v, hint, -⟩ := hx
    rw [ldForm_literal _ hint, classify_of_reg16 hd, hn]
    cases rr <;> rfl
  | ldSpN16 n =>
    obtain ⟨hd, hx⟩ := two h
    have hn := n16?_iff_fits.2 hx
    obtain ⟨ks, v, hint, -⟩ := hx
    rw [ldForm_literal _ hint, classify_of_fixed (y := .sp) (by decide) hd, hn]
    rfl
  | ldSpHl => exact ldForm_fixed (y := .sp) (z := .r16 .hl) (by decide) (by decide) h rfl
  | _ => cases hi

/-! ## Every form -/

theorem fits_one {o : Operand} {ops : List Text} (h : List.Forall₂ Operand.Fits [o] (ops.map classify)) :
    ∃ x, ops = [x] ∧ o.Fits (classify x) := by
  match ops, h with
  | [x], h => exact ⟨x, rfl, by simpa using h⟩
  | [], h | _ :: _ :: _, h => simp at h

theorem fits_two {o₁ o₂ : Operand} {ops : List Text} (h : List.Forall₂ Operand.Fits [o₁, o₂] (ops.map classify)) :
    ∃ x y, ops = [x, y] ∧ o₁.Fits (classify x) ∧ o₂.Fits (classify y) := by
  match ops, h with
  | [x, y], h => exact ⟨x, y, rfl, by simpa using h⟩
  | [], h | [_], h | _ :: _ :: _ :: _, h => simp at h

theorem fits_none {ops : List Text} (h : List.Forall₂ Operand.Fits [] (ops.map classify)) : ops = [] := by
  cases ops with
  | nil => rfl
  | cons x rest => simp at h

/-- Classified operands that fit the places of an instruction are of its form. -/
theorem matchForm_of_fits {i : Instr} {ops : List Text}
    (h : List.Forall₂ Operand.Fits (formOperands i) (ops.map classify)) :
    matchForm i.mnemonic (ops.map classify) = some i := by
  cases i with
  | addN8 n =>
    obtain ⟨d, x, rfl, hd, hx⟩ := fits_two h
    exact addForm_of_accForm (accForm_n8 hd hx)
  | addR8 r =>
    obtain ⟨d, x, rfl, hd, hx⟩ := fits_two h
    exact addForm_of_accForm (accForm_r8 hd hx)
  | addInd =>
    obtain ⟨d, x, rfl, hd, hx⟩ := fits_two h
    exact addForm_of_accForm (accForm_ind hd hx)
  | addHl rr =>
    obtain ⟨d, x, rfl, hd, hx⟩ := fits_two h
    exact addForm_hl hd hx
  | adcN8 | subN8 | sbcN8 | andN8 | xorN8 | orN8 | cpN8 =>
    obtain ⟨d, x, rfl, hd, hx⟩ := fits_two h
    exact accForm_n8 hd hx
  | adcR8 | subR8 | sbcR8 | andR8 | xorR8 | orR8 | cpR8 =>
    obtain ⟨d, x, rfl, hd, hx⟩ := fits_two h
    exact accForm_r8 hd hx
  | adcInd | subInd | sbcInd | andInd | xorInd | orInd | cpInd =>
    obtain ⟨d, x, rfl, hd, hx⟩ := fits_two h
    exact accForm_ind hd hx
  | incR8 | decR8 | rlcR8 | rrcR8 | slaR8 | sraR8 | swapR8 | srlR8 =>
    obtain ⟨x, rfl, hx⟩ := fits_one h
    exact Option.map_eq_some_iff.2 ⟨_, r8?_iff_fits.2 hx, rfl⟩
  | push | pop =>
    obtain ⟨x, rfl, hx⟩ := fits_one h
    exact Option.map_eq_some_iff.2 ⟨_, r16?_iff_fits.2 hx, rfl⟩
  | p | print =>
    obtain ⟨x, rfl, hx⟩ := fits_one h
    exact Option.map_eq_some_iff.2 ⟨_, printArg?_iff_fits.2 hx, rfl⟩
  | r1 | r2 | r4 =>
    obtain ⟨x, rfl, hx⟩ := fits_one h
    exact Option.map_eq_some_iff.2 ⟨_, int?_iff_fits.2 hx, rfl⟩
  | x1 | x2 | x4 =>
    obtain ⟨o, n, rfl, ho, hn⟩ := fits_two h
    simp [Instr.mnemonic, matchForm, formOf2, int?_iff_fits.2 ho, int?_iff_fits.2 hn]
  | cpl | rrca | nop | status =>
    obtain rfl := fits_none h
    rfl
  | ldR16N16 | ldIndR8 | ldR8R8 | ldR8N8 | ldR8Ind | ldIndN8 | ldHliA | ldHldA | ldAHli | ldAHld | ldSpN16 | ldSpHl =>
    obtain ⟨d, x, rfl, -⟩ := fits_two h
    exact ldForm_of_fits rfl h

/-! ## Commands -/

theorem length_formOperands (i : Instr) : (formOperands i).length = i.mnemonic.arity := by cases i <;> rfl

/-- A token that fits a place is known. -/
theorem known_of_fits {o : Operand} {t : Token} (h : o.Fits t) : ∃ ks v, t = .known ks v := by
  cases o with
  | fixed k => obtain ⟨ks, v, ht, -⟩ := h; exact ⟨ks, v, ht⟩
  | reg8 | reg16 | whole => obtain ⟨ks, ht, -⟩ := h; exact ⟨ks, _, ht⟩
  | imm8 | imm16 => obtain ⟨ks, v, ht, -⟩ := h; exact ⟨ks, _, ht⟩
  | shown x => obtain ⟨ks, ht⟩ := h; exact ⟨ks, _, ht⟩

theorem firstUnknown_of_fits {os : List Operand} {toks : List Token} (h : List.Forall₂ Operand.Fits os toks) :
    firstUnknown toks = none := by
  induction h with
  | nil => rfl
  | cons hfit _ ih =>
    obtain ⟨ks, v, rfl⟩ := known_of_fits hfit
    exact ih

/-- A command is the instruction whose form it fits, and no other. -/
theorem decodeCommand_eq_ok_iff {params : Params} {c : Command} {i : Instr} :
    decodeCommand params c = .ok i ↔ FitsForm params c i := by
  constructor
  · intro h
    obtain ⟨m, hk, -, -, hm⟩ := decodeCommand_eq_ok h
    obtain ⟨rfl, hfit⟩ := matchForm_eq_some hm
    exact ⟨hk, hfit⟩
  · rintro ⟨hk, hfit⟩
    have hlen : (normalise i.mnemonic c.operands).length = i.mnemonic.arity := by
      rw [← length_formOperands, hfit.length_eq, List.length_map]
    have hu := firstUnknown_of_fits hfit
    rw [firstUnknown_normalise] at hu
    exact decodeCommand_matched hk ((normalise_length _ _).1 hlen) hu (matchForm_of_fits hfit)

/-! ## Well-formed instructions -/

theorem inN16_of_whole {v : Int} {x : Text} (h : (Operand.whole v).Fits (classify x)) : inN16 v = true :=
  int?_classify (int?_iff_fits.2 h)

theorem wf_of_shown {p : PrintArg} {x : Text} (h : (Operand.shown p).Fits (classify x)) : p.wf = true := by
  cases p with
  | lit v =>
    obtain ⟨ks, hx⟩ := h
    rcases classify_eq_known hx with ⟨n, hv, hn, -⟩ | ⟨y, hv, -⟩
    · cases hv
      exact hn
    · cases hv
  | reg8 | reg16 | sp | atHL | atHLI | atHLD => rfl

/-- Only a place of the examine commands asks for more than its type does. -/
theorem wf_of_fits {i : Instr} {ops : List Text}
    (h : List.Forall₂ Operand.Fits (formOperands i) (ops.map classify)) : i.wf = true := by
  cases i with
  | p | print =>
    obtain ⟨x, -, hx⟩ := fits_one h
    exact wf_of_shown hx
  | r1 | r2 | r4 =>
    obtain ⟨x, -, hx⟩ := fits_one h
    exact inN16_of_whole hx
  | x1 | x2 | x4 =>
    obtain ⟨o, n, -, ho, hn⟩ := fits_two h
    exact Bool.and_eq_true_iff.2 ⟨inN16_of_whole ho, inN16_of_whole hn⟩
  | _ => rfl

/-- Settles O32: a decoded command's classified operands fit the form, and its key passed the gate of `EXT_OPS`. -/
theorem decodedCommandsAreWellFormed : Obligations.DecodedCommandsAreWellFormed := by
  intro params c i h
  obtain ⟨hk, hfit⟩ := decodeCommand_eq_ok_iff.1 h
  exact ⟨wf_of_fits hfit, (dispatchKey_eq_some hk).2⟩

/-! ## An instruction's own text -/

theorem fits_r8_text (r : R8) : (Operand.reg8 r).Fits (classify r.text) := by
  cases r <;> exact ⟨_, rfl, by decide⟩

theorem fits_r16_text (rr : R16) : (Operand.reg16 rr).Fits (classify rr.text) := by
  cases rr <;> exact ⟨_, rfl, by decide⟩

theorem n8_mem_kindsOf {v : Int} (h0 : 0 ≤ v) (h : v ≤ 255) : Kind.n8 ∈ kindsOf v := by
  have hrange : v ≤ 7 ∨ (8 ≤ v ∧ v ≤ 127) ∨ 128 ≤ v := by omega
  rcases hrange with hu3 | he8 | hn8
  · simp [kindsOf_of_u3 h0 hu3]
  · simp [kindsOf_of_e8 (.inr he8)]
  · simp [kindsOf_of_n8 hn8 h]

theorem fits_hex8 (n : Byte) : (Operand.imm8 n).Fits (classify (hexLiteral n.toNat)) := by
  have hlt := n.isLt
  exact ⟨_, _, classify_hexLiteral (by omega), n8_mem_kindsOf (by omega) (by omega), by omega⟩

theorem fits_hex16 (n : Word) : (Operand.imm16 n).Fits (classify (hexLiteral n.toNat)) := by
  have hlt := n.isLt
  have hn : inN16 (n.toNat : Int) = true := inN16_of_bounds (by omega) (by omega)
  exact ⟨_, _, classify_hexLiteral (by omega), by simpa using kindsOf_mem hn, by omega⟩

theorem fits_intLiteral {v : Int} (h : inN16 v = true) : (Operand.whole v).Fits (classify (intLiteral v)) :=
  ⟨_, classify_intLiteral h, by simpa using kindsOf_mem h⟩

theorem fits_shown_text {p : PrintArg} (h : p.wf = true) : (Operand.shown p).Fits (classify p.text) := by
  cases p with
  | lit v => exact ⟨_, classify_intLiteral h⟩
  | reg8 r =>
    obtain ⟨ks, hr, -⟩ := fits_r8_text r
    exact ⟨ks, hr⟩
  | reg16 rr =>
    obtain ⟨ks, hrr, -⟩ := fits_r16_text rr
    exact ⟨ks, hrr⟩
  | sp | atHL | atHLI | atHLD => exact ⟨_, rfl⟩

/-- A place of one text is fitted by that text. -/
theorem fits_fixed_text {k : Kind} {y : Symbol} (hk : (k, y) ∈ fixedKinds) :
    (Operand.fixed k).Fits (classify (symbolText y)) := by
  have carries : ∀ p ∈ fixedKinds, (classify (symbolText p.2)).has p.1 = true := by decide
  exact has_iff_fits.1 (carries _ hk)

theorem normalise_operandTexts (i : Instr) : normalise i.mnemonic i.operandTexts = i.operandTexts := by
  cases i <;> rfl

/-- The operand texts of an instruction fit its places, with every operand at every value. -/
theorem fits_operandTexts {i : Instr} (hwf : i.wf = true) :
    List.Forall₂ Operand.Fits (formOperands i) (i.operandTexts.map classify) := by
  have hA : (Operand.fixed .accA).Fits (classify ['A']) := fits_fixed_text (y := .r8 .a) (by decide)
  have hHL : (Operand.fixed .pairHL).Fits (classify ['H', 'L']) := fits_fixed_text (y := .r16 .hl) (by decide)
  have hSp : (Operand.fixed .regSP).Fits (classify textSp) := fits_fixed_text (y := .sp) (by decide)
  have hInd : (Operand.fixed .atHL).Fits (classify textAtHL) := fits_fixed_text (y := .atHL) (by decide)
  have hInc : (Operand.fixed .atHLI).Fits (classify textAtHLI) := fits_fixed_text (y := .atHLI) (by decide)
  have hDec : (Operand.fixed .atHLD).Fits (classify textAtHLD) := fits_fixed_text (y := .atHLD) (by decide)
  cases i with
  | addN8 n | adcN8 n | subN8 n | sbcN8 n | andN8 n | xorN8 n | orN8 n | cpN8 n =>
    exact .cons hA (.cons (fits_hex8 n) .nil)
  | addR8 r | adcR8 r | subR8 r | sbcR8 r | andR8 r | xorR8 r | orR8 r | cpR8 r =>
    exact .cons hA (.cons (fits_r8_text r) .nil)
  | addInd | adcInd | subInd | sbcInd | andInd | xorInd | orInd | cpInd => exact .cons hA (.cons hInd .nil)
  | addHl rr => exact .cons hHL (.cons (fits_r16_text rr) .nil)
  | incR8 r | decR8 r | rlcR8 r | rrcR8 r | slaR8 r | sraR8 r | swapR8 r | srlR8 r =>
    exact .cons (fits_r8_text r) .nil
  | cpl | rrca | nop | status => exact .nil
  | ldR16N16 rr n => exact .cons (fits_r16_text rr) (.cons (fits_hex16 n) .nil)
  | ldIndR8 r => exact .cons hInd (.cons (fits_r8_text r) .nil)
  | ldR8R8 dst src => exact .cons (fits_r8_text dst) (.cons (fits_r8_text src) .nil)
  | ldR8N8 dst n => exact .cons (fits_r8_text dst) (.cons (fits_hex8 n) .nil)
  | ldR8Ind dst => exact .cons (fits_r8_text dst) (.cons hInd .nil)
  | ldIndN8 n => exact .cons hInd (.cons (fits_hex8 n) .nil)
  | ldHliA => exact .cons hInc (.cons hA .nil)
  | ldHldA => exact .cons hDec (.cons hA .nil)
  | ldAHli => exact .cons hA (.cons hInc .nil)
  | ldAHld => exact .cons hA (.cons hDec .nil)
  | ldSpN16 n => exact .cons hSp (.cons (fits_hex16 n) .nil)
  | ldSpHl => exact .cons hSp (.cons hHL .nil)
  | push rr | pop rr => exact .cons (fits_r16_text rr) .nil
  | p x | print x => exact .cons (fits_shown_text hwf) .nil
  | r1 v | r2 v | r4 v => exact .cons (fits_intLiteral hwf) .nil
  | x1 o n | x2 o n | x4 o n =>
    obtain ⟨ho, hn⟩ := Bool.and_eq_true_iff.1 hwf
    exact .cons (fits_intLiteral ho) (.cons (fits_intLiteral hn) .nil)

/-- Settles O31: an instruction's own texts fit its form, so its command decodes to it. -/
theorem textOfAnInstructionDecodesToIt : Obligations.TextOfAnInstructionDecodesToIt := by
  intro params i hwf hext
  refine decodeCommand_eq_ok_iff.2 ⟨dispatchKey_text params i.mnemonic hext, ?_⟩
  change List.Forall₂ _ _ ((normalise i.mnemonic i.operandTexts).map classify)
  rw [normalise_operandTexts]
  exact fits_operandTexts hwf

/-! ## Opcode-table words -/

/-- An instruction with bytes is well formed: its operands are bounded by their types. -/
theorem wf_of_encode {i : Instr} {bs : List Byte} (h : encode i = some bs) : i.wf = true := by
  cases i with
  | p | print | r1 | r2 | r4 | x1 | x2 | x4 => cases h
  | _ => rfl

theorem wf_of_decode {bs rest : List Byte} {i : Instr} (h : decode bs = some (i, rest)) : i.wf = true := by
  obtain ⟨own, hown, -⟩ := decodedBytesAreTheInstructionsBytes bs i rest h
  exact wf_of_encode hown

theorem wf_of_decodeWhole {bs : List Byte} {i : Instr} (h : decodeWhole bs = some i) : i.wf = true := by
  unfold decodeWhole at h
  split at h
  · rename_i hdec
    split at h
    · cases h
      exact wf_of_decode hdec
    · cases h
  · cases h

theorem wf_of_decodeTableWord {nbits w : Nat} {i : Instr} (h : decodeTableWord nbits w = some i) : i.wf = true := by
  unfold decodeTableWord at h
  simp only at h
  split at h
  · rename_i hhigh
    cases h
    exact wf_of_decodeWhole hhigh
  · exact wf_of_decodeWhole h

/-- The parameters a word is presented under have its instruction as a command and adopt its form. -/
theorem paramsFor_some (i : Instr) (params : Params) :
    (i.mnemonic.isExt = true → (paramsFor (some i) params).extOps = true) ∧
      formAdopted (paramsFor (some i) params) i = true := by
  constructor
  · intro h
    simp [paramsFor, h]
  · cases hg : i.grade == .settled <;> simp [formAdopted, paramsFor, hg]

/-- Settles O36: the word is presented as the text of its instruction, which decodes to it. -/
theorem presentedWordRuns : Obligations.PresentedWordRuns := by
  intro s nbits w i hw
  obtain ⟨hext, hadopt⟩ := paramsFor_some i s.params
  have hdec := textOfAnInstructionDecodesToIt (paramsFor (some i) s.params) i (wf_of_decodeTableWord hw) hext
  have hplace : s.withFetchWord nbits w =
      { s with params := paramsFor (some i) s.params, pending := .command (encodeText i) :: s.pending } := by
    simp [State.withFetchWord, presentWord, hw, present, wordCommand]
  rw [hplace]
  exact stepRunsTheDecodedInstruction _ _ _ s.pending i rfl (.inl rfl) hdec hadopt

/-! ## The forms that are not admitted -/

/-- A known command whose operands are classified and fit no form is a KindMismatchError. -/
theorem kindMismatch_of_no_form {params : Params} {c : Command} {m : Mnemonic}
    (hk : dispatchKey params c.mnemonic = some m) (hc : c.operands.length ∈ acceptedCounts m)
    (hclass : ∀ x ∈ c.operands, Classified x) (hno : ∀ i, ¬ FitsForm params c i) :
    decodeCommand params c = .error .kindMismatch := by
  rcases decodeCommand_cases hk hc with ⟨raw, hu, -⟩ | ⟨-, ⟨i, h⟩ | h⟩
  · rw [firstUnknown_classify_eq_none.2 hclass] at hu
    cases hu
  · exact absurd (decodeCommand_eq_ok_iff.1 h) (hno i)
  · exact h

theorem acceptedCounts_accumulator {m : Mnemonic} (hm : m.isAccumulator = true) : 2 ∈ acceptedCounts m := by
  simp [acceptedCounts_of_isAccumulator hm]

/-- The forms of the accumulator mnemonics begin with `A`, and the 16-bit `add` with `HL`. -/
theorem formOperands_accumulator {i : Instr} (h : i.mnemonic.isAccumulator = true) :
    (∃ o, formOperands i = [.fixed .accA, o]) ∨
      i.mnemonic = .add ∧ ∃ o, formOperands i = [.fixed .pairHL, o] := by
  cases i with
  | addHl rr => exact .inr ⟨rfl, _, rfl⟩
  | addN8 | addR8 | addInd | adcN8 | adcR8 | adcInd | subN8 | subR8 | subInd | sbcN8 | sbcR8 | sbcInd
  | andN8 | andR8 | andInd | xorN8 | xorR8 | xorInd | orN8 | orR8 | orInd | cpN8 | cpR8 | cpInd => exact .inl ⟨_, rfl⟩
  | _ => cases h

theorem accumulator_without_A {params : Params} {key x y : Text} {m : Mnemonic} (hk : dispatchKey params key = some m)
    (hm : m.isAccumulator = true) (hx : Classified x) (hy : Classified y) (hA : x.map upperChar ≠ "A".toList)
    (hHL : m = .add → x.map upperChar ≠ "HL".toList) :
    decodeCommand params ⟨key, [x, y]⟩ = .error .kindMismatch := by
  refine kindMismatch_of_no_form hk (acceptedCounts_accumulator hm) (by simp [hx, hy]) ?_
  rintro i ⟨hi, hfit⟩
  obtain rfl : m = i.mnemonic := Option.some.inj (hk.symm.trans hi)
  rw [normalise_two] at hfit
  rcases formOperands_accumulator hm with ⟨o, ho⟩ | ⟨hadd, o, ho⟩ <;> rw [ho] at hfit
  · exact hA (upper_of_fixed (y := .r8 .a) (by decide) (List.forall₂_cons.1 hfit).1)
  · exact hHL hadd (upper_of_fixed (y := .r16 .hl) (by decide) (List.forall₂_cons.1 hfit).1)

/-- Two classified operands that fit no form of `ld`. -/
theorem decodeCommand_ld_mismatch {dst src : Text} {dstKinds srcKinds : List Kind} {dstVal srcVal : TokenValue}
    (hdst : classify dst = .known dstKinds dstVal) (hsrc : classify src = .known srcKinds srcVal)
    (hform : ldForm (classify dst) (classify src) = none) (params : Params) :
    decodeCommand params ⟨"ld".toList, [dst, src]⟩ = .error .kindMismatch := by
  have hk : dispatchKey params "ld".toList = some .ld := dispatchKey_text params .ld (by simp [Mnemonic.isExt])
  have hclass : ∀ x ∈ [dst, src], Classified x := by simp [Classified, hdst, hsrc]
  exact decodeCommand_kindMismatch hk (by simp [acceptedCounts]) (firstUnknown_classify_eq_none.2 hclass) hform

theorem formOf2_none_left {α β : Type} (mk : α → β → Instr) (y : Option β) : formOf2 mk none y = none := rfl

/-- No form of `ld` has a literal first. -/
theorem ldForm_of_literal_first {d : Text} {ks : List Kind} {v : Int} (x : Token)
    (hd : classify d = .known ks (.int v)) : ldForm (classify d) x = none := by
  obtain ⟨hr8, hr16, hkinds⟩ := classify_int hd
  have hno : ∀ k ∈ [Kind.atHL, .atHLI, .atHLD, .accA, .regSP], (classify d).has k = false :=
    fun k hk => hkinds k (by revert k; decide)
  simp only [List.forall_mem_cons] at hno
  obtain ⟨hHL, hHLI, hHLD, hA, hSp, -⟩ := hno
  simp [ldForm, firstForm_cons, firstForm_nil, formOf2_none_left, formIf, hr8, hr16, hHL, hHLI, hHLD, hA, hSp]

/-- A command whose one form takes an operand of kind `r8` takes no operand without it. -/
theorem kindMismatch_without_r8 {m : Mnemonic} {mk : R8 → Instr} (hform : ∀ t, matchForm m [t] = t.r8?.map mk)
    (hc : acceptedCounts m = [1]) (hext : m.isExt = false) {params : Params} {x : Text} {ks : List Kind}
    {v : TokenValue} (hx : classify x = .known ks v) (hr8 : Kind.r8 ∉ ks) :
    decodeCommand params ⟨m.text, [x]⟩ = .error .kindMismatch := by
  have hk : dispatchKey params m.text = some m := dispatchKey_text params m (by simp [hext])
  have hacc : m.isAccumulator = false := by
    cases ha : m.isAccumulator with
    | false => rfl
    | true => simp [acceptedCounts_of_isAccumulator ha] at hc
  have hnorm : normalise m [x] = [x] := by simp [normalise, hacc]
  have hnone : (classify x).r8? = none := by
    cases hr : (classify x).r8? with
    | none => rfl
    | some r =>
      obtain ⟨ks', he, hmem⟩ := r8?_iff_fits.1 hr
      cases hx.symm.trans he
      exact absurd hmem hr8
  refine decodeCommand_kindMismatch hk (by simp [hc]) (firstUnknown_classify_eq_none.2 (by simp [Classified, hx])) ?_
  simp [hnorm, hform, hnone]

theorem takesOnlyR8_inc : TakesOnlyR8 "inc" := fun _ _ _ _ =>
  kindMismatch_without_r8 (m := .inc) (mk := .incR8) (fun _ => rfl) rfl rfl

theorem takesOnlyR8_dec : TakesOnlyR8 "dec" := fun _ _ _ _ =>
  kindMismatch_without_r8 (m := .dec) (mk := .decR8) (fun _ => rfl) rfl rfl

theorem takesOnlyR8_srl : TakesOnlyR8 "srl" := fun _ _ _ _ =>
  kindMismatch_without_r8 (m := .srl) (mk := .srlR8) (fun _ => rfl) rfl rfl

theorem takesOnlyR8_swap : TakesOnlyR8 "swap" := fun _ _ _ _ =>
  kindMismatch_without_r8 (m := .swap) (mk := .swapR8) (fun _ => rfl) rfl rfl

/-- A command with `F` or `PC` among its operands has an unknown one. -/
theorem unknownOperand_of_F_or_PC {params : Params} {c : Command} {m : Mnemonic} {x : Text}
    (hk : dispatchKey params c.mnemonic = some m) (hc : c.operands.length ∈ acceptedCounts m) (hx : x ∈ c.operands)
    (hup : x.map upperChar ∈ ["F", "PC"].map String.toList) :
    ∃ raw, decodeCommand params c = .error (.unknownOperand raw) := by
  have noForm : ∀ t ∈ ["F", "PC"].map String.toList, literal t = none ∧ t ∉ symbolForms.map (·.1) := by decide
  obtain ⟨hl, hs⟩ := noForm _ hup
  rcases decodeCommand_cases hk hc with ⟨raw, -, h⟩ | ⟨hu, -⟩
  · exact ⟨raw, h⟩
  · obtain ⟨ks, v, hknown⟩ := firstUnknown_classify_eq_none.1 hu x hx
    cases (classify_of_no_form hl hs).symm.trans hknown

/-- Settles O46: decoding is fitting; the families are the commands that fit no form, or have an unknown operand. -/
theorem unadmittedFormsAreErrors : Obligations.UnadmittedFormsAreErrors := by
  refine ⟨fun _ _ _ => decodeCommand_eq_ok_iff, fun _ _ _ => kindMismatch_of_no_form,
    fun _ _ _ _ _ => accumulator_without_A, fun p ks v x y hx ⟨ks', v', hy⟩ => ?literal, fun p rr qq => ?pairs,
    fun p r hr => ?stepping, fun p => ?mismatches, fun _ _ _ _ => unknownOperand_of_F_or_PC, fun p => ?unknowns⟩
  case literal => exact decodeCommand_ld_mismatch hx hy (ldForm_of_literal_first _ hx) p
  case pairs =>
    refine ⟨?_, ?_, ?_⟩
    · cases rr <;> exact takesOnlyR8_inc p _ _ _ rfl (by decide)
    · cases rr <;> exact takesOnlyR8_dec p _ _ _ rfl (by decide)
    · cases rr <;> cases qq <;> exact decodeCommand_ld_mismatch rfl rfl rfl p
  case stepping =>
    cases r with
    | a => exact absurd rfl hr
    | b | c | d | e | h | l =>
      exact ⟨decodeCommand_ld_mismatch rfl rfl rfl p, decodeCommand_ld_mismatch rfl rfl rfl p⟩
  case mismatches =>
    obtain ⟨e, f⟩ := p
    revert e f
    decide
  case unknowns =>
    obtain ⟨e, f⟩ := p
    revert e f
    decide

end Sys2Proof.Machine
end

section
/-! SUPPORT. The accumulator commands and `add HL`, `inc`, `dec`: each commits the result and the flags of its kernel
function (spec R110 to R117, R131 to R136). -/

namespace Sys2Proof.Machine

open Sys2Proof.Laws

/-! ## The three forms of an accumulator command -/

/-- An effect of a command on its second operand's value holds for its three forms. -/
theorem accForms_of_exec {f : Byte → State → Host.Outcome State Fault Refusal} {onN8 : Byte → Instr}
    {onR8 : R8 → Instr} {onInd : Instr} {s : State} {effect : Instr → Byte → Prop}
    (hN8 : ∀ n, exec (onN8 n) s = f n s) (hR8 : ∀ r, exec (onR8 r) s = f (valR8 s r) s)
    (hInd : exec onInd s = withInd f s) (h : ∀ i x, exec i s = f x s → effect i x) :
    AccForms onN8 onR8 onInd s effect :=
  ⟨fun n => h _ _ (hN8 n), fun r => h _ _ (hR8 r), h _ _ (hInd.trans (withInd_eq f s))⟩

/-! ## Sums and differences -/

/-- Settles O1: each form adds its operand by `add8`, which is the sum with its carries. -/
theorem addPutsSumInA : Obligations.AddPutsSumInA := by
  refine ⟨⟨fun _ => rfl, fun _ => rfl, rfl⟩, fun _ => rfl, fun s => ?_⟩
  refine accForms_of_exec (f := addWith) (fun _ => rfl) (fun _ => rfl) rfl fun i x hx => accEffect_of_commit ?_
  rw [hx, addWith, add8_eq, BitVec.ofNat_toNat, BitVec.setWidth_eq]

/-- Settles O2: each form adds its operand by `adc8`, the carry joined to the operand. -/
theorem adcPutsSumWithCarryInA : Obligations.AdcPutsSumWithCarryInA := by
  refine ⟨⟨fun _ => rfl, fun _ => rfl, rfl⟩, fun s => ?_⟩
  refine accForms_of_exec (f := adcWith) (fun _ => rfl) (fun _ => rfl) rfl fun i x hx => accEffect_of_commit ?_
  rw [hx, adcWith, adc8_eq]
  rfl

theorem sub8_byte (a x : Byte) :
    sub8 a x.toNat = (a - x, pack (decide (a = x)) true (decide (a.toNat % 16 < x.toNat % 16))
      (decide (a.toNat < x.toNat))) := by
  rw [sub8_eq, BitVec.ofNat_toNat, BitVec.setWidth_eq, sub_eq_zero_decide]

/-- Settles O3: each form subtracts its operand by `sub8`, which is the difference with its borrows. -/
theorem subPutsDifferenceInA : Obligations.SubPutsDifferenceInA := by
  refine ⟨⟨fun _ => rfl, fun _ => rfl, rfl⟩, fun s => ?_⟩
  refine accForms_of_exec (f := subWith) (fun _ => rfl) (fun _ => rfl) rfl fun i x hx => accEffect_of_commit ?_
  rw [hx, subWith, sub8_byte]

/-- Settles O4: each form subtracts its operand by `sbc8`, the borrow joined to the operand. -/
theorem sbcPutsDifferenceWithCarryInA : Obligations.SbcPutsDifferenceWithCarryInA := by
  refine ⟨⟨fun _ => rfl, fun _ => rfl, rfl⟩, fun s => ?_⟩
  refine accForms_of_exec (f := sbcWith) (fun _ => rfl) (fun _ => rfl) rfl fun i x hx => accEffect_of_commit ?_
  rw [hx, sbcWith, sbc8_eq]
  rfl

/-- Settles O5: each form writes the flags byte of `sub8` to F, and nothing else. -/
theorem cpWritesOnlyFlags : Obligations.CpWritesOnlyFlags := by
  refine ⟨⟨fun _ => rfl, fun _ => rfl, rfl⟩, fun s => ?_⟩
  refine accForms_of_exec (f := cpWith) (fun _ => rfl) (fun _ => rfl) rfl fun i x hx => ?_
  rw [cpWith, sub8_byte] at hx
  exact ⟨_, ⟨hx.trans (complete_eq _ _), rfl⟩, hasFlags_commit s _ _ _ _ _, keepsRegs_setReg8 s _ _,
    keepsPairs_setReg8 s _ _, fun _ => rfl, rfl, rfl⟩

theorem exec_addHl (rr : R16) (s : State) :
    exec (.addHl rr) s = complete .none ((s.setReg16 .hl (s.reg16 .hl + valR16 s rr)).setReg8 .f
      (pack (s.flag .z) false
        (decide (4095 < (s.reg16 .hl).toNat % 4096 + (valR16 s rr).toNat % 4096))
        (decide (65536 ≤ (s.reg16 .hl).toNat + (valR16 s rr).toNat)))) := by
  change execAddHl rr s = _
  rw [execAddHl, add16_eq]
  rfl

/-- Settles O6: the commit writes H, L and F; the two refused texts fit no form of `add`. -/
theorem addHlKeepsZ : Obligations.AddHlKeepsZ := by
  refine ⟨rfl, rfl, rfl, fun _ => rfl, fun _ => rfl, fun rr s => ?_⟩
  refine ⟨_, ⟨(exec_addHl rr s).trans (complete_eq _ _), rfl⟩, ?hl, hasFlags_commit _ _ _ _ _ _, ?regs, ?pairs,
    fun _ => rfl, rfl, rfl⟩
  case hl => exact reg16_setReg16_self s .hl _
  case regs =>
    intro q hq
    obtain ⟨hh, hl, hf⟩ : q ≠ .h ∧ q ≠ .l ∧ q ≠ .f := by simpa using hq
    exact (reg8_setReg8_of_ne _ _ hf).trans (keepsRegs_setReg16 s .hl _ q (by simp [r16Hi, r16Lo, hh, hl]))
  case pairs =>
    exact fun p hp => (keepsPairs_setReg8 _ .f _ p hp).trans (keepsPairs_setReg16 s .hl _ p hp)

/-! ## `inc` and `dec` -/

/-- Settles O7: `inc8` is zero exactly on 0xFF. -/
theorem incKeepsCarry : Obligations.IncKeepsCarry := by
  refine ⟨fun _ => rfl, takesOnlyR8_inc, fun r s => regEffect_of_commit ?_⟩
  have hz : decide (s.reg8 (r8Reg r) + 1 = 0) = decide (s.reg8 (r8Reg r) = 0xFF) := by
    rw [decide_eq_decide]
    bv_omega
  change commitR8 r (inc8 (s.reg8 (r8Reg r)) (s.reg8 .f)) s = _
  rw [inc8_eq, hz]
  rfl

/-- Settles O8: `dec8` is zero exactly on 1. -/
theorem decKeepsCarry : Obligations.DecKeepsCarry := by
  refine ⟨fun _ => rfl, takesOnlyR8_dec, fun r s => regEffect_of_commit ?_⟩
  change commitR8 r (dec8 (s.reg8 (r8Reg r)) (s.reg8 .f)) s = _
  rw [dec8_eq]
  rfl

/-! ## Logic -/

theorem xor8_eq (a x : Byte) : xor8 a x = (a ^^^ x, pack (decide (a = x)) false false false) := by
  have hz : (a ^^^ x = 0) = (a = x) := propext BitVec.xor_eq_zero_iff
  simp only [xor8, beq_zero, hz]

theorem and8_eq (a x : Byte) : and8 a x = (a &&& x, pack (decide (a &&& x = 0)) false true false) := by
  simp only [and8, beq_zero]

theorem or8_eq (a x : Byte) : or8 a x = (a ||| x, pack (decide (a = 0 ∧ x = 0)) false false false) := by
  have hz : (a ||| x = 0) = (a = 0 ∧ x = 0) := propext BitVec.or_eq_zero_iff
  simp only [or8, beq_zero, hz]

/-- Settles O9: an exclusive or is zero exactly on equal bytes. -/
theorem xorClearsNHC : Obligations.XorClearsNHC := by
  refine ⟨⟨fun _ => rfl, fun _ => rfl, rfl⟩, fun s => ?_⟩
  refine accForms_of_exec (f := xorWith) (fun _ => rfl) (fun _ => rfl) rfl fun i x hx => accEffect_of_commit ?_
  rw [hx, xorWith, xor8_eq]

/-- The keys of `EXT_OPS` are unknown without it, whatever the operands. -/
theorem unknownMnemonic_of_extKey {params : Params} (h : params.extOps = false) {key : Text} (hk : key ∈ extKeys)
    (ops : List Text) : decodeCommand params ⟨key, ops⟩ = .error .unknownMnemonic := by
  have gated : ∀ key ∈ extKeys, key.map lowerChar ∉ baseKeys := by decide
  refine (unknownMnemonicExactlyWithoutAKey params ⟨key, ops⟩).2 ⟨gated key hk, ?_⟩
  rw [h]
  simp

/-- Settles O10: each form commits `and8` or `or8`; the two keys are gated by `EXT_OPS`. -/
theorem andOrWriteTheirFlags : Obligations.AndOrWriteTheirFlags := by
  have keys : ∀ m ∈ ["and", "or"], m.toList ∈ extKeys := by decide
  refine ⟨⟨fun _ => rfl, fun _ => rfl, rfl⟩, ⟨fun _ => rfl, fun _ => rfl, rfl⟩,
    fun p ops hp m hm => unknownMnemonic_of_extKey hp (keys m hm) ops, fun s => ⟨?and, ?or⟩⟩
  case and =>
    refine accForms_of_exec (f := andWith) (fun _ => rfl) (fun _ => rfl) rfl fun i x hx => accEffect_of_commit ?_
    rw [hx, andWith, and8_eq]
  case or =>
    refine accForms_of_exec (f := orWith) (fun _ => rfl) (fun _ => rfl) rfl fun i x hx => accEffect_of_commit ?_
    rw [hx, orWith, or8_eq]

end Sys2Proof.Machine
end

section
/-! SUPPORT. The rotates and shifts of a register, in numbers (spec R142 to R150). -/

namespace Sys2Proof.Machine

open Sys2Proof.Laws

/-! ## Bytes in numbers -/

/-- Bit 7 of a byte says whether it is 128 or more. -/
theorem byte_getLsbD_seven (x : Byte) : x.getLsbD 7 = decide (128 ≤ x.toNat) := BitVec.msb_eq_decide x

/-- A number below 256 is zero as a byte exactly when it is zero. -/
theorem ofNat_beq_zero {n : Nat} {p : Prop} [Decidable p] (hn : n < 256) (hp : n = 0 ↔ p) :
    (BitVec.ofNat 8 n == 0) = decide p := by
  have hzero : BitVec.ofNat 8 n = 0 ↔ n = 0 := by
    rw [← BitVec.toNat_inj, BitVec.toNat_ofNat, Nat.mod_eq_of_lt hn]
    rfl
  rw [beq_zero, decide_eq_decide, hzero, hp]

/-- Bits put together from places that do not overlap are a sum. -/
theorem shiftLeft_or {b k : Nat} (a : Nat) (hb : b < 2 ^ k) : a <<< k ||| b = a * 2 ^ k + b := by
  rw [← Nat.shiftLeft_add_eq_or_of_lt hb, Nat.shiftLeft_eq]

theorem byte_shiftRight_one (x : Byte) : x >>> 1 = BitVec.ofNat 8 (x.toNat / 2) := by
  apply BitVec.eq_of_toNat_eq
  have := x.isLt
  simp [Nat.shiftRight_one]
  omega

theorem byte_shiftLeft_one (x : Byte) : x <<< 1 = BitVec.ofNat 8 (x.toNat * 2 % 256) := by
  apply BitVec.eq_of_toNat_eq
  simp [Nat.shiftLeft_eq]

/-- The nibbles of a byte exchanged. -/
theorem byte_swap (x : Byte) :
    ((x &&& 0x0F) <<< 4) ||| (x >>> 4) = BitVec.ofNat 8 (x.toNat % 16 * 16 + x.toNat / 16) := by
  apply BitVec.eq_of_toNat_eq
  have hlow : x.toNat &&& 15 = x.toNat % 16 := Nat.and_two_pow_sub_one_eq_mod x.toNat 4
  have hfit : (x.toNat % 16) <<< 4 % 256 = (x.toNat % 16) <<< 4 := by omega
  have hhigh : x.toNat / 16 < 2 ^ 4 := by omega
  have hor := shiftLeft_or (x.toNat % 16) hhigh
  calc (((x &&& 0x0F) <<< 4) ||| (x >>> 4)).toNat
      = (x.toNat % 16) <<< 4 ||| x.toNat / 16 := by
        simp [hlow, hfit, Nat.shiftRight_eq_div_pow]
    _ = (BitVec.ofNat 8 (x.toNat % 16 * 16 + x.toNat / 16)).toNat := by
        rw [hor, BitVec.toNat_ofNat]
        omega

/-- A byte rotated left by one. -/
theorem byte_rotateLeft_one (x : Byte) :
    (x <<< 1) ||| (x >>> 7) = BitVec.ofNat 8 (x.toNat * 2 % 256 + x.toNat / 128) := by
  apply BitVec.eq_of_toNat_eq
  have hfit : x.toNat <<< 1 % 256 = (x.toNat % 128) <<< 1 := by omega
  have htop : x.toNat / 128 < 2 ^ 1 := by omega
  have hor := shiftLeft_or (x.toNat % 128) htop
  calc ((x <<< 1) ||| (x >>> 7)).toNat
      = (x.toNat % 128) <<< 1 ||| x.toNat / 128 := by
        simp [hfit, Nat.shiftRight_eq_div_pow]
    _ = (BitVec.ofNat 8 (x.toNat * 2 % 256 + x.toNat / 128)).toNat := by
        rw [hor, BitVec.toNat_ofNat]
        omega

/-- A byte halved with its bit 7 kept. -/
theorem byte_halve_signed (x : Byte) :
    (x >>> 1) ||| (x &&& 0x80) = BitVec.ofNat 8 (x.toNat / 2 + x.toNat / 128 * 128) := by
  apply BitVec.eq_of_toNat_eq
  have hsign : x.toNat &&& 128 = (x.toNat / 128) <<< 7 := by
    have hbit : x.toNat.testBit 7 = decide (128 ≤ x.toNat) := byte_getLsbD_seven x
    have htop : (decide (128 ≤ x.toNat)).toNat = x.toNat / 128 := by
      by_cases h : 128 ≤ x.toNat <;> simp [h] <;> omega
    calc x.toNat &&& 128 = (x.toNat.testBit 7).toNat * 2 ^ 7 := Nat.and_two_pow x.toNat 7
      _ = (x.toNat / 128) <<< 7 := by rw [hbit, htop, Nat.shiftLeft_eq]
  have hhalf : x.toNat / 2 < 2 ^ 7 := by omega
  have hor := shiftLeft_or (x.toNat / 128) hhalf
  calc ((x >>> 1) ||| (x &&& 0x80)).toNat
      = (x.toNat / 128) <<< 7 ||| x.toNat / 2 := by
        simp [hsign, Nat.shiftRight_one, Nat.or_comm]
    _ = (BitVec.ofNat 8 (x.toNat / 2 + x.toNat / 128 * 128)).toNat := by
        rw [hor, BitVec.toNat_ofNat]
        omega

/-! ## The kernel functions -/

theorem srl8_eq (x : Byte) :
    srl8 x = (BitVec.ofNat 8 (x.toNat / 2),
      pack (decide (x.toNat < 2)) false false (decide (x.toNat % 2 = 1))) := by
  simp only [srl8, byte_shiftRight_one, byte_getLsbD_zero]
  rw [ofNat_beq_zero (p := x.toNat < 2) (by omega) (by omega)]

theorem swap8_eq (x : Byte) :
    swap8 x = (BitVec.ofNat 8 (x.toNat % 16 * 16 + x.toNat / 16), pack (decide (x = 0)) false false false) := by
  have hz : x.toNat % 16 * 16 + x.toNat / 16 = 0 ↔ x = 0 := by bv_omega
  simp only [swap8, byte_swap]
  rw [ofNat_beq_zero (by omega) hz]

theorem rlc8_eq (x : Byte) :
    rlc8 x = (BitVec.ofNat 8 (x.toNat * 2 % 256 + x.toNat / 128),
      pack (decide (x.toNat = 0)) false false (decide (128 ≤ x.toNat))) := by
  have hz : x.toNat * 2 % 256 + x.toNat / 128 = 0 ↔ x.toNat = 0 := by
    have htop : x.toNat / 128 = 0 ∨ x.toNat / 128 = 1 := by omega
    omega
  simp only [rlc8, byte_rotateLeft_one, byte_getLsbD_seven]
  rw [ofNat_beq_zero (by omega) hz]

theorem rrc8_eq (x : Byte) :
    rrc8 x = (BitVec.ofNat 8 (x.toNat / 2 + x.toNat % 2 * 128),
      pack (decide (x.toNat = 0)) false false (decide (x.toNat % 2 = 1))) := by
  simp only [rrc8, byte_rotateRight_one, byte_getLsbD_zero]
  rw [ofNat_beq_zero (p := x.toNat = 0) (by omega) (by omega)]

theorem sla8_eq (x : Byte) :
    sla8 x = (BitVec.ofNat 8 (x.toNat * 2 % 256),
      pack (decide (x.toNat % 128 = 0)) false false (decide (128 ≤ x.toNat))) := by
  simp only [sla8, byte_shiftLeft_one, byte_getLsbD_seven]
  rw [ofNat_beq_zero (p := x.toNat % 128 = 0) (by omega) (by omega)]

theorem sra8_eq (x : Byte) :
    sra8 x = (BitVec.ofNat 8 (x.toNat / 2 + x.toNat / 128 * 128),
      pack (decide (x.toNat < 2)) false false (decide (x.toNat % 2 = 1))) := by
  simp only [sra8, byte_halve_signed, byte_getLsbD_zero]
  rw [ofNat_beq_zero (p := x.toNat < 2) (by omega) (by omega)]

/-! ## The commands -/

/-- An instruction that commits a kernel function of an operand register has that function's result and flags. -/
theorem regEffect_of_kernel {i : Instr} {s : State} {r : R8} {kernel : Byte → Byte × Byte} {result : Byte}
    {z n h c : Bool} (he : exec i s = commitR8 r (kernel (valR8 s r)) s)
    (hk : kernel (s.reg8 (r8Reg r)) = (result, pack z n h c)) : RegEffect i s r result z n h c :=
  regEffect_of_commit (he.trans (congrArg (commitR8 r · s) hk))

/-- Settles O13: `srl8` halves the byte and gives its parity to C. -/
theorem srlShiftsRight : Obligations.SrlShiftsRight :=
  ⟨fun _ => rfl, takesOnlyR8_srl, fun _ _ => regEffect_of_kernel rfl (srl8_eq _)⟩

/-- Settles O14: `swap8` exchanges the byte's digits in base 16. -/
theorem swapExchangesNibbles : Obligations.SwapExchangesNibbles :=
  ⟨fun _ => rfl, takesOnlyR8_swap, fun _ _ => regEffect_of_kernel rfl (swap8_eq _)⟩

/-- Settles O15: each kernel function in numbers; the four keys are gated by `EXT_OPS`. -/
theorem extRotatesAndShifts : Obligations.ExtRotatesAndShifts := by
  have keys : ∀ m ∈ ["rlc", "rrc", "sla", "sra"], m.toList ∈ extKeys := by decide
  exact ⟨fun _ => ⟨rfl, rfl, rfl, rfl⟩, fun p ops hp m hm => unknownMnemonic_of_extKey hp (keys m hm) ops,
    fun r s => ⟨regEffect_of_kernel rfl (rlc8_eq _), regEffect_of_kernel rfl (rrc8_eq _),
      regEffect_of_kernel rfl (sla8_eq _), regEffect_of_kernel rfl (sra8_eq _)⟩⟩

end Sys2Proof.Machine
end

section
/-! SUPPORT. The byte loads, the stores at HL and the stack: each ends by completing with one store or one write, whose
frame is the frame of the command (spec R162 to R176). -/

namespace Sys2Proof.Machine

open Sys2Proof.Laws

/-! ## Loads -/

theorem exec_ldR8Ind (dst : R8) (s : State) :
    exec (.ldR8Ind dst) s = complete .none (s.setReg8 (r8Reg dst) (atHl s)) := by
  change execLdR8Ind dst s = _
  rw [execLdR8Ind, withInd_eq]
  rfl

theorem exec_ldAHli (s : State) :
    exec .ldAHli s = complete .none ((s.setReg8 .a (atHl s)).setReg16 .hl (s.reg16 .hl + 1)) := by
  change execLdAHli s = _
  rw [execLdAHli, withInd_eq]
  rfl

theorem exec_ldAHld (s : State) :
    exec .ldAHld s = complete .none ((s.setReg8 .a (atHl s)).setReg16 .hl (s.reg16 .hl - 1)) := by
  change execLdAHld s = _
  rw [execLdAHld, withInd_eq]
  rfl

/-- Settles O17: each load writes its one register; the two literals have one token. -/
theorem loadsIntoAByteRegister : Obligations.LoadsIntoAByteRegister := by
  refine ⟨fun _ _ => rfl, fun _ _ => rfl, fun _ => rfl, fun p x hx => ?literals,
    fun s dst => ⟨fun src => loadEffect_of_complete rfl, fun n => loadEffect_of_complete rfl,
      loadEffect_of_complete (exec_ldR8Ind dst s)⟩⟩
  case literals =>
    have hrow : x = "-1" ∨ x = "255" := by simpa using hx
    rcases hrow with rfl | rfl <;> exact decodeCommand_ld (dst := "A".toList) rfl rfl rfl p

/-- Settles O19: each load of SP writes the pair SP and nothing else. -/
theorem loadsIntoSp : Obligations.LoadsIntoSp :=
  ⟨fun _ => rfl, rfl, fun _ => ⟨fun _ => loadSpEffect_of_complete rfl, loadSpEffect_of_complete rfl⟩⟩

/-- A load of A through HL that leaves HL at another address. -/
theorem loadA_setHl {i : Instr} {s : State} {hl : Word}
    (he : exec i s = complete .none ((s.setReg8 .a (atHl s)).setReg16 .hl hl)) :
    ∃ t, Completes i s t .none ∧ t.reg8 .a = atHl s ∧ t.reg16 .hl = hl ∧
      KeepsRegs s t [.a, .h, .l] ∧ KeepsPairs s t [.pc, .sp] ∧ KeepsMem s t ∧ KeepsHost s t := by
  refine ⟨_, ⟨he.trans (complete_eq _ _), rfl⟩, rfl, reg16_setReg16_self _ .hl hl, fun q hq => ?_, fun p hp => ?_,
    fun _ => rfl, rfl, rfl⟩
  · obtain ⟨ha, hh, hl⟩ : q ≠ .a ∧ q ≠ .h ∧ q ≠ .l := by simpa using hq
    exact (keepsRegs_setReg16 _ .hl _ q (by simp [r16Hi, r16Lo, hh, hl])).trans (reg8_setReg8_of_ne s _ ha)
  · exact (keepsPairs_setReg16 _ .hl _ p hp).trans (keepsPairs_setReg8 s .a _ p hp)

/-- Settles O22: the byte is read at the old HL, and HL is written last. -/
theorem loadsAAndStepsHl : Obligations.LoadsAAndStepsHl := by
  refine ⟨rfl, rfl, fun s form hform => ?_⟩
  have hrow : form = (.ldAHli, s.reg16 .hl + 1) ∨ form = (.ldAHld, s.reg16 .hl - 1) := by simpa using hform
  rcases hrow with rfl | rfl
  · exact loadA_setHl (exec_ldAHli s)
  · exact loadA_setHl (exec_ldAHld s)

/-! ## Stores -/

/-- An instruction that stores one byte at HL and answers has the store effect. -/
theorem storeEffect_of_complete {i : Instr} {s t : State} {v : Byte} {hl : Word} {written : List Reg8} (hs : s.Inv)
    (he : exec i s = complete .none t) (hmem : t.mem = s.mem.write (s.reg16 .hl).toNat v) (hhl : t.reg16 .hl = hl)
    (hregs : KeepsRegs s t written) (hpairs : KeepsPairs s t [.pc, .sp]) (hhost : KeepsHost s t) :
    StoreEffect i s v hl written := by
  have hin : (s.reg16 .hl).toNat < 0x10000 := (s.reg16 .hl).isLt
  refine ⟨_, ⟨he.trans (complete_eq _ _), rfl⟩, ?stored, fun q hq => ?kept, ?inv, hhl, hregs, hpairs, hhost⟩
  case stored =>
    rw [answered_mem, hmem]
    exact read_write_self _ v hs
  case kept =>
    have hne : q ≠ (s.reg16 .hl).toNat := by
      simp only [hlAddr, Int.toNat_natCast] at hq
      omega
    rw [answered_mem, hmem, read_write_of_ne _ v hne]
  case inv =>
    unfold State.Inv
    rw [answered_mem, hmem]
    exact wf_write v hs hin

/-- A store at HL with nothing after it. -/
theorem storeEffect_of_store {i : Instr} {s : State} {v : Byte} (hs : s.Inv)
    (he : exec i s = storeInd v (complete .none) s) : StoreEffect i s v (s.reg16 .hl) [] :=
  storeEffect_of_complete hs (he.trans (storeInd_eq v _ s)) rfl rfl (fun _ _ => rfl) (fun _ _ => rfl) ⟨rfl, rfl⟩

/-- Settles O20: each store writes its byte at HL and no register. -/
theorem storesOneByteAtHl : Obligations.StoresOneByteAtHl :=
  ⟨fun _ => rfl, fun _ => rfl, decodeCommand_ld (dst := "[HL]".toList) (src := "-1".toList) rfl rfl rfl,
    fun _ hs => ⟨fun _ => storeEffect_of_store hs rfl, fun _ => storeEffect_of_store hs rfl⟩⟩

/-- A store at HL that leaves HL at another address. -/
theorem storeEffect_of_store_setHl {i : Instr} {s : State} {v : Byte} {hl : Word} (hs : s.Inv)
    (he : exec i s = complete .none ((s.setMem (s.mem.write (s.reg16 .hl).toNat v)).setReg16 .hl hl)) :
    StoreEffect i s v hl [.h, .l] :=
  storeEffect_of_complete hs he rfl (reg16_setReg16_self _ .hl hl) (keepsRegs_setReg16 _ .hl hl)
    (keepsPairs_setReg16 _ .hl hl) ⟨rfl, rfl⟩

theorem exec_ldHliA (s : State) :
    exec .ldHliA s = complete .none
      ((s.setMem (s.mem.write (s.reg16 .hl).toNat (s.reg8 .a))).setReg16 .hl (s.reg16 .hl + 1)) := by
  change execLdHliA s = _
  rw [execLdHliA, storeInd_eq]
  rfl

theorem exec_ldHldA (s : State) :
    exec .ldHldA s = complete .none
      ((s.setMem (s.mem.write (s.reg16 .hl).toNat (s.reg8 .a))).setReg16 .hl (s.reg16 .hl - 1)) := by
  change execLdHldA s = _
  rw [execLdHldA, storeInd_eq]
  rfl

/-- Settles O21: A is stored at the old HL, and HL is written last. -/
theorem storesAAndStepsHl : Obligations.StoresAAndStepsHl :=
  ⟨rfl, rfl, fun s hs => ⟨storeEffect_of_store_setHl hs (exec_ldHliA s),
    storeEffect_of_store_setHl hs (exec_ldHldA s)⟩⟩

/-! ## The stack -/

theorem loByte_valR16 (s : State) (rr : R16) : loByte (valR16 s rr) = s.reg8 (r16Lo rr) := by
  cases rr <;> exact loByte_pair _ _

theorem hiByte_valR16 (s : State) (rr : R16) : hiByte (valR16 s rr) = s.reg8 (r16Hi rr) := by
  cases rr <;> exact hiByte_pair _ _

/-- A word in memory is the pair of its two bytes, the low one first (spec R42). -/
theorem ofNat_readLE_two (m : Memory) (addr : Nat) :
    BitVec.ofNat 16 (m.readLE addr 2) = pair (m.read (addr + 1)) (m.read addr) := by
  have hbytes : m.readLE addr 2 = (m.read (addr + 1)).toNat * 256 + (m.read addr).toNat := by
    simp only [Memory.readLE]
    omega
  rw [hbytes, pair]

/-- An error of an instruction changes nothing else. -/
theorem errs_of_raise {i : Instr} {s : State} {e : CmdError} (h : exec i s = raise e s) : Errs i s e :=
  ⟨_, h.trans (raise_eq e s), rfl, rfl, rfl, rfl, rfl⟩

theorem exec_push_of_ne (rr : R16) (s : State) (h : s.reg16 .sp ≠ 1) :
    exec (.push rr) s = complete .none
      ((s.setMem (s.mem.writeLE (pushAddr s).toNat 2 (valR16 s rr).toNat)).setReg16 .sp (pushAddr s)) :=
  execPush_of_ne rr s h

theorem exec_pop_of_ne (rr : R16) (s : State) (h : s.reg16 .sp ≠ 0xFFFF) :
    exec (.pop rr) s = complete .none ((s.setReg16 (r16Reg rr)
      (pair (s.mem.read ((s.reg16 .sp).toNat + 1)) (s.mem.read (s.reg16 .sp).toNat))).setReg16 .sp (popSp s)) :=
  (execPop_of_ne rr s h).trans (by rw [ofNat_readLE_two])

/-- Settles O23: the word lies whole in memory exactly when SP is not 1, and its low byte is the second register. -/
theorem pushStoresBelowSp : Obligations.PushStoresBelowSp := by
  refine ⟨fun _ => rfl, fun rr s hs => ⟨fun hsp => errs_of_raise (execPush_of_eq rr s hsp), fun hsp => ?_⟩⟩
  have hin := pushAddr_bound s hsp
  refine ⟨_, ⟨(exec_push_of_ne rr s hsp).trans (complete_eq _ _), rfl⟩, rfl, reg16_setReg16_self _ .sp _, ?low, ?high,
    fun q hq => read_writeLE_of_outside _ _ hq, wf_writeLE _ hs hin, fun q _ => reg8_setReg16_sp _ q _,
    fun p hp => ?pc, rfl, rfl⟩
  case low =>
    rw [← loByte_valR16 s rr]
    exact (read_writeLE_byte _ hs hin 0 (by decide)).trans (by simp [loByte])
  case high =>
    rw [← hiByte_valR16 s rr]
    exact (read_writeLE_byte _ hs hin 1 (by decide)).trans (by simp [hiByte])
  case pc =>
    obtain rfl : p = .pc := by simpa using hp
    rfl

/-- Settles O24: the word lies whole in memory exactly when SP is not 0xFFFF; the pair is written, then SP. -/
theorem popLoadsFromSp : Obligations.PopLoadsFromSp := by
  refine ⟨fun _ => rfl, fun rr s => ⟨fun hsp => errs_of_raise (execPop_of_eq rr s hsp), fun hsp => ?_⟩⟩
  refine ⟨_, ⟨(exec_pop_of_ne rr s hsp).trans (complete_eq _ _), rfl⟩, ?low, ?high, reg16_setReg16_self _ .sp _,
    fun q hq => ?regs, fun p hp => ?pc, fun _ => rfl, rfl, rfl⟩
  case low => rw [answered_reg8, reg8_setReg16_sp, reg8_r16Lo_setReg16, loByte_pair]
  case high => rw [answered_reg8, reg8_setReg16_sp, reg8_r16Hi_setReg16, hiByte_pair]
  case regs => exact (reg8_setReg16_sp _ q _).trans (keepsRegs_setReg16 s rr _ q hq)
  case pc =>
    obtain rfl : p = .pc := by simpa using hp
    exact pc_setReg16_r16Reg s rr _

/-- Settles O25: SP stands where the word was stored, so the word is read back whole. -/
theorem popAfterPushMovesThePair : Obligations.PopAfterPushMovesThePair := by
  intro rr qq s hs hsp
  have hpush := (exec_push_of_ne rr s hsp).trans (complete_eq _ _)
  refine ⟨_, _, hpush, (exec_pop_of_ne qq _ ?top).trans (complete_eq _ _), ?pair, ?sp⟩
  case top =>
    rw [answered_reg16, reg16_setReg16_self, ne_eq, pushAddr_eq_top]
    exact hsp
  case pair =>
    have hlt : (valR16 s rr).toNat < 256 ^ 2 := (valR16 s rr).isLt
    have hword := readLE_writeLE (valR16 s rr).toNat hs (pushAddr_bound s hsp)
    rw [← ofNat_readLE_two, answered_reg16, reg16_setReg16, if_neg (r16Reg_ne qq).2.1, reg16_setReg16_self,
      answered_mem, setReg16_mem, setMem_mem, answered_reg16, reg16_setReg16_self, hword,
      Nat.mod_eq_of_lt hlt, BitVec.ofNat_toNat, BitVec.setWidth_eq, valR16]
  case sp =>
    rw [answered_reg16, reg16_setReg16_self, popSp, answered_reg16, reg16_setReg16_self, pushAddr]
    exact BitVec.sub_add_cancel _ _

end Sys2Proof.Machine
end

section
/-! SUPPORT. The examine commands: each shows what it shows, or raises a RangeError, on the state as it is (spec R190 to
R194); and the state after reset. -/

namespace Sys2Proof.Machine

open Sys2Proof.Laws

/-! ## `p`, `print` and `status` -/

theorem exec_shows {mk : PrintArg → Instr} (h : mk = Instr.p ∨ mk = Instr.print) (x : PrintArg) (s : State) :
    exec (mk x) s = .next (s.answered (.success (.printed (printValue s x)))) := by
  rcases h with rfl | rfl <;> rfl

theorem printValue_through_hl (s : State) :
    ∀ x ∈ [PrintArg.atHL, PrintArg.atHLI, PrintArg.atHLD], printValue s x = (atHl s).toNat := by
  simp [printValue, hlAddr, atHl]

/-- Settles O26: both spellings show the operand's value and only answer. -/
theorem printShowsTheOperand : Obligations.PrintShowsTheOperand := by
  intro s mk hmk
  refine ⟨fun _ => exec_shows hmk _ s, fun _ => exec_shows hmk _ s, fun _ => exec_shows hmk _ s, exec_shows hmk _ s,
    fun x hx => ?_⟩
  rw [exec_shows hmk, printValue_through_hl s x hx]

/-- Settles O29: the flags line is read off F flag by flag. -/
theorem statusShowsTheRegisters : Obligations.StatusShowsTheRegisters :=
  ⟨decodeCommand_arity_of_nullary (m := .status) rfl, fun _ => rfl⟩

/-! ## `r/N` -/

theorem hexText_eq (w : Width) (v : Nat) : hexText w v = .ch '$' :: hexMarks (2 * widthBytes w) v := by
  rw [hexText, hexDigits_eq_hexMarks]

/-- The three widths of `r/N`, each with its command and its number of bytes. -/
theorem examine_forms :
    ∀ form ∈ [(Width.byte, Instr.r1, (1 : Int)), (Width.word, Instr.r2, 2), (Width.dword, Instr.r4, 4)],
    form.2.2 = widthBytes form.1 ∧ ∀ a s, exec (form.2.1 a) s = examine form.1 a s := by
  simp only [List.forall_mem_cons]
  exact ⟨⟨rfl, fun _ _ => rfl⟩, ⟨rfl, fun _ _ => rfl⟩, ⟨rfl, fun _ _ => rfl⟩, by simp⟩

/-- Settles O27: the command shows the value exactly when the access lies whole in memory. -/
theorem examineShowsMemory : Obligations.ExamineShowsMemory := by
  rintro s a ⟨w, mk, n⟩ hform
  obtain ⟨hn, hexec⟩ := examine_forms _ hform
  simp only at hn hexec ⊢
  subst hn
  refine ⟨fun h0 h => ?shown, fun h => ?outside⟩
  case shown =>
    rw [hexec, examine_eq, if_pos (inBounds_of_le h0 (by omega)), complete_eq, hexText_eq, readLE_eq_leValue,
      Int.toNat_natCast]
  case outside =>
    have hout : inBounds a w = false := inBounds_eq_false (by omega)
    exact errs_of_raise (by rw [hexec, examine_eq, hout, if_neg Bool.false_ne_true])

/-! ## `x/N` -/

theorem dump_of_le {w : Width} {o c : Int} (s : State) (ho : 0 ≤ o) (hc : 0 ≤ c) (h : o + c * widthBytes w ≤ 0x10000) :
    dump w o c s = complete (.dump (dumpRows s.mem w o.toNat c.toNat)) s := if_neg (by omega)

theorem dump_of_outside {w : Width} {o c : Int} (s : State) (h : o < 0 ∨ c < 0 ∨ 0x10000 < o + c * widthBytes w) :
    dump w o c s = raise .range s := if_pos h

/-- The rows of a dump, one for each 16 items begun. -/
theorem dumpRows_getElem? (m : Memory) (w : Width) (o c k : Nat) :
    (dumpRows m w o c)[k]? = if k < (c + 15) / 16 then some (dumpRow m w o c k) else none := by
  by_cases hk : k < (c + 15) / 16 <;> simp [dumpRows, hk]

/-- The items of a row, at most 16 of them. -/
theorem dumpRow_items_getElem? (m : Memory) (w : Width) (o c k j : Nat) :
    (dumpRow m w o c k).items[j]? =
      if j < min 16 (c - 16 * k) then some (dumpItem m w o (16 * k + j)) else none := by
  by_cases hj : j < min 16 (c - 16 * k) <;> simp [dumpRow, hj]

theorem dumpItem_eq (m : Memory) (w : Width) (o i : Nat) :
    dumpItem m w o i = hexMarks (2 * widthBytes w) (leValue m (o + i * widthBytes w) w) := by
  rw [dumpItem, hexDigits_eq_hexMarks, readLE_eq_leValue]

theorem showsItems_dumpRows (m : Memory) (w : Width) (o c : Nat) : ShowsItems m w o c (dumpRows m w o c) := by
  refine ⟨by simp [dumpRows], fun k row hrow => ?rows, fun i hi => ⟨dumpRow m w o c (i / 16), ?row, ?item⟩⟩
  case rows =>
    rw [dumpRows_getElem?] at hrow
    split at hrow
    · cases hrow
      exact ⟨by rw [dumpRow, hexDigits_eq_hexMarks], by simp [dumpRow]⟩
    · cases hrow
  case row => rw [dumpRows_getElem?, if_pos (by omega)]
  case item =>
    rw [dumpRow_items_getElem?, if_pos (by omega), Nat.div_add_mod, dumpItem_eq]

/-- The three widths of `x/N`, each with its command and its number of bytes. -/
theorem dump_forms :
    ∀ form ∈ [(Width.byte, Instr.x1, (1 : Int)), (Width.word, Instr.x2, 2), (Width.dword, Instr.x4, 4)],
    form.2.2 = widthBytes form.1 ∧ ∀ o c s, exec (form.2.1 o c) s = dump form.1 o c s := by
  simp only [List.forall_mem_cons]
  exact ⟨⟨rfl, fun _ _ _ => rfl⟩, ⟨rfl, fun _ _ _ => rfl⟩, ⟨rfl, fun _ _ _ => rfl⟩, by simp⟩

/-- Settles O28: item i stands in row i/16 at place i mod 16, and the bounds are checked before anything is shown. -/
theorem dumpShowsItems : Obligations.DumpShowsItems := by
  rintro s o c ⟨w, mk, n⟩ hform
  obtain ⟨hn, hexec⟩ := dump_forms _ hform
  simp only at hn hexec ⊢
  subst hn
  refine ⟨fun ho hc h => ⟨_, ?shown, showsItems_dumpRows s.mem w o.toNat c.toNat⟩, fun h => ?outside⟩
  case shown => rw [hexec, dump_of_le s ho hc h, complete_eq]
  case outside => exact errs_of_raise ((hexec o c s).trans (dump_of_outside s h))

/-! ## All of them -/

/-- An instruction without machine code only answers. -/
theorem exec_of_encode_eq_none {i : Instr} (s : State) (h : encode i = none) :
    (∃ out, exec i s = complete out s) ∨ exec i s = raise .range s := by
  cases i with
  | p | print | status => exact .inl ⟨_, rfl⟩
  | r1 a | r2 a | r4 a =>
    change (∃ out, examine _ a s = _) ∨ examine _ a s = _
    rw [examine_eq]
    split
    · exact .inl ⟨_, rfl⟩
    · exact .inr rfl
  | x1 o c | x2 o c | x4 o c =>
    change (∃ out, dump _ o c s = _) ∨ dump _ o c s = _
    unfold dump
    split
    · exact .inr rfl
    · exact .inl ⟨_, rfl⟩
  | _ => cases h

/-- Settles O30: an answer changes no register, flag or memory byte. -/
theorem examineChangesNothing : Obligations.ExamineChangesNothing := by
  intro i s h
  rcases exec_of_encode_eq_none s h with ⟨out, hexec⟩ | hexec
  · exact ⟨_, _, hexec.trans (complete_eq out s), rfl, rfl, rfl, rfl, rfl⟩
  · exact ⟨_, _, hexec.trans (raise_eq .range s), rfl, rfl, rfl, rfl, rfl⟩

/-! ## Reset -/

theorem reg8_reset (r : Reg8) : State.reset.reg8 r = 0 := by cases r <;> rfl

theorem reg16_reset (rr : Reg16) : State.reset.reg16 rr = 0 := by cases rr <;> rfl

/-- Settles O51: an empty memory reads the fresh byte everywhere, and every register of the default file is zero. -/
theorem resetState : Obligations.ResetState :=
  ⟨fun _ _ _ => rfl, fun _ _ => ⟨rfl, rfl⟩, reg8_reset, reg16_reset, rfl, rfl, rfl, rfl⟩

end Sys2Proof.Machine
end
